-- ==== Sys2Proof/Word.lean ====
section
/-! DEFINITION. The word types of the hardware (00_scope.md R7, R9). -/

namespace Sys2Proof

/-- A memory cell or a general register: 8 bits, unsigned (00_scope.md R7). -/
abbrev Byte := BitVec 8

/-- A 4-bit field: the opcode or the operand field of an instruction (00_scope.md R7, 30_encoding.md R59). -/
abbrev Nibble := BitVec 4

/-- A memory address: 4 bits, 0 to 15 (00_scope.md R7). -/
abbrev Addr := BitVec 4

end Sys2Proof
end

