-- ==== Sys2Proof/Config.lean ====
section
/-! DEFINITION. The implementation parameters the spec leaves open as named parameters (00_scope.md R8). -/

namespace Sys2Proof

/-- `LOAD_FLAG_POLICY` (00_scope.md R8): which LOAD instructions write Z and N. -/
inductive LoadFlagPolicy where
  /-- NONE: neither LOAD_A nor LOAD_B writes them. -/
  | none
  /-- BOTH: both write them from the loaded value. -/
  | both
  /-- A_ONLY: LOAD_A writes them and LOAD_B does not. -/
  | aOnly
  deriving DecidableEq, Repr

/-- The configuration of one machine, fixed for that machine (00_scope.md R8). -/
structure Config where
  /-- `LOAD_FLAG_POLICY`. -/
  loadFlagPolicy : LoadFlagPolicy
  /-- `ADDI_PRESENT`: whether opcode 1010 decodes as ADDI (true) or as UNKNOWN (false). -/
  addiPresent : Bool
  deriving DecidableEq, Repr

/-- The canonical configuration (00_scope.md R8, R15): `LOAD_FLAG_POLICY` = NONE, `ADDI_PRESENT` = false.
DESIGN CHOICE (log 2): the spec's canonical values, which its own decisions D2 and D3 chose. -/
def Config.canonical : Config := { loadFlagPolicy := .none, addiPresent := false }

end Sys2Proof
end

