-- ==== Sys2Proof/Syntax.lean ====
section
/-! DEFINITION. The instructions, and the decoded record the host sees (30_encoding.md R61, R63; 10_state.md R32). -/

namespace Sys2Proof

/-- The mnemonics of a decoded instruction (10_state.md R32). -/
inductive Mnemonic where
  | nop | loadA | loadB | storeA | storeB | add | sub | jump | jumpNeg | jumpZero | addi | halt | unknown
  deriving DecidableEq, Repr

/-- The operand kinds of the opcode table (30_encoding.md R61). -/
inductive OperandKind where
  | none | addr | regs | data
  deriving DecidableEq, Repr

/-- One constructor for each mnemonic of the opcode table (30_encoding.md R63). The five UNKNOWN rows are
one mnemonic whose record keeps the raw opcode (R64, 40_cycle.md R74), here the argument of `unknown`. -/
inductive Instr where
  /-- NOP (44_system.md R111). -/
  | nop
  /-- LOAD_A a (41_load_store.md R95). -/
  | loadA (a : Addr)
  /-- LOAD_B a (41_load_store.md R96). -/
  | loadB (a : Addr)
  /-- STORE_A a (41_load_store.md R97). -/
  | storeA (a : Addr)
  /-- STORE_B a (41_load_store.md R98). -/
  | storeB (a : Addr)
  /-- ADD (42_alu.md R100). -/
  | add
  /-- SUB (42_alu.md R101). -/
  | sub
  /-- JUMP t (43_control.md R107). -/
  | jump (t : Addr)
  /-- JUMP_NEG t (43_control.md R108). -/
  | jumpNeg (t : Addr)
  /-- JUMP_ZERO t (43_control.md R109). -/
  | jumpZero (t : Addr)
  /-- ADDI imm, the optional extension (42_alu.md R102). -/
  | addi (imm : Nibble)
  /-- UNKNOWN: an opcode with no table entry, kept as read (44_system.md R113). -/
  | unknown (op : Nibble)
  /-- HALT (44_system.md R112). -/
  | halt
  deriving DecidableEq, Repr

/-- The decoded instruction as the record of 10_state.md R32, which `decode()` returns to the host. -/
structure DecodedRecord where
  mnemonic : Mnemonic
  kind     : OperandKind
  /-- The raw opcode. -/
  opbits   : Nibble
  /-- The operand value 0 to 15, or absent. -/
  value    : Option Nibble
  deriving DecidableEq, Repr

/-- One entry of the opcode table (30_encoding.md R63). -/
structure OpcodeRow where
  op       : Nibble
  mnemonic : Mnemonic
  kind     : OperandKind
  deriving DecidableEq, Repr

end Sys2Proof
end

