-- ==== Sys2Proof/WellFormed.lean ====
section
/-! DEFINITION. Which instructions a machine's decoder can produce (30_encoding.md R63, R64). -/

namespace Sys2Proof

/-- An opcode with no entry in the opcode table of this configuration (30_encoding.md R64):
1011 to 1110 always, and 1010 when ADDI is absent. -/
def opcodeUnassigned (cfg : Config) (op : Nibble) : Bool :=
  op == 0b1011#4 || op == 0b1100#4 || op == 0b1101#4 || op == 0b1110#4 ||
    (op == 0b1010#4 && !cfg.addiPresent)

/-- The instruction exists on a machine of this configuration: ADDI only where it is present, UNKNOWN only
with an opcode that has no table entry; every operand field of the others is legal (30_encoding.md R61). -/
def Instr.wellFormed (cfg : Config) : Instr → Bool
  | .nop => true
  | .loadA _ => true
  | .loadB _ => true
  | .storeA _ => true
  | .storeB _ => true
  | .add => true
  | .sub => true
  | .jump _ => true
  | .jumpNeg _ => true
  | .jumpZero _ => true
  | .addi _ => cfg.addiPresent
  | .unknown op => opcodeUnassigned cfg op
  | .halt => true

end Sys2Proof
end

