-- ==== Sys2Proof/Decode.lean ====
section
/-! DEFINITION. The decoder, total on every byte, and the encoder written from the same table
(30_encoding.md R59 to R67, 40_cycle.md R74). -/

namespace Sys2Proof

/-- Bits 7:4 of an instruction byte (30_encoding.md R59). -/
def opField (b : Byte) : Nibble := b.extractLsb' 4 4

/-- Bits 3:0 of an instruction byte (30_encoding.md R59). -/
def oprField (b : Byte) : Nibble := b.extractLsb' 0 4

/-- The opcode table (30_encoding.md R63), with `ADDI_PRESENT` filling in opcode 1010. -/
def opcodeTable (cfg : Config) : List OpcodeRow :=
  [ ⟨0b0000#4, .nop,      .none⟩,
    ⟨0b0001#4, .loadA,    .addr⟩,
    ⟨0b0010#4, .loadB,    .addr⟩,
    ⟨0b0011#4, .storeA,   .addr⟩,
    ⟨0b0100#4, .storeB,   .addr⟩,
    ⟨0b0101#4, .add,      .regs⟩,
    ⟨0b0110#4, .sub,      .regs⟩,
    ⟨0b0111#4, .jump,     .addr⟩,
    ⟨0b1000#4, .jumpNeg,  .addr⟩,
    ⟨0b1001#4, .jumpZero, .addr⟩ ]
  ++ (if cfg.addiPresent then [⟨0b1010#4, .addi, .data⟩] else [])
  ++ [ ⟨0b1111#4, .halt, .none⟩ ]

/-- The table's entry for an opcode, if it has one. -/
def lookupOpcode (cfg : Config) (op : Nibble) : Option OpcodeRow :=
  (opcodeTable cfg).find? fun row => row.op == op

/-- The mnemonic the table gives an opcode, or UNKNOWN: the echo of `loadInstruction` (20_memory.md R44). -/
def tableMnemonic (cfg : Config) (op : Nibble) : Mnemonic :=
  match lookupOpcode cfg op with
  | some row => row.mnemonic
  | none     => .unknown

/-- The instruction of a mnemonic with the raw fields it was decoded from. NOP, HALT, ADD, SUB and UNKNOWN
do not read the operand field (30_encoding.md R62, R65; log 11). -/
def assemble (m : Mnemonic) (op opr : Nibble) : Instr :=
  match m with
  | .nop      => .nop
  | .loadA    => .loadA opr
  | .loadB    => .loadB opr
  | .storeA   => .storeA opr
  | .storeB   => .storeB opr
  | .add      => .add
  | .sub      => .sub
  | .jump     => .jump opr
  | .jumpNeg  => .jumpNeg opr
  | .jumpZero => .jumpZero opr
  | .addi     => .addi opr
  | .halt     => .halt
  | .unknown  => .unknown op

/-- `decodeFields(op, opr)` (40_cycle.md R74): the instruction the two fields of IR stand for. -/
def decodeFields (cfg : Config) (op opr : Nibble) : Instr :=
  assemble (tableMnemonic cfg op) op opr

/-- The instruction a byte stands for; every byte decodes (30_encoding.md R66). -/
def decodeByte (cfg : Config) (b : Byte) : Instr :=
  decodeFields cfg (opField b) (oprField b)

/-- Why the decoder rejects an input: only for want of a byte, since every byte decodes (30_encoding.md R66). -/
inductive DecodeError where
  /-- There is no byte to decode. -/
  | noByte
  deriving DecidableEq, Repr

/-- The first instruction of a byte string and the bytes after it; one instruction is one byte
(30_encoding.md R60). -/
def decodeBytes (cfg : Config) : List Byte → Except DecodeError (Instr × List Byte)
  | []        => .error .noByte
  | b :: rest => .ok (decodeByte cfg b, rest)

/-! The decoded record (10_state.md R32, 40_cycle.md R74). -/

/-- The instruction's mnemonic. -/
def Instr.mnemonic : Instr → Mnemonic
  | .nop => .nop
  | .loadA _ => .loadA
  | .loadB _ => .loadB
  | .storeA _ => .storeA
  | .storeB _ => .storeB
  | .add => .add
  | .sub => .sub
  | .jump _ => .jump
  | .jumpNeg _ => .jumpNeg
  | .jumpZero _ => .jumpZero
  | .addi _ => .addi
  | .unknown _ => .unknown
  | .halt => .halt

/-- The operand kind (30_encoding.md R61, R63); UNKNOWN has kind None (log 12). -/
def Instr.kind : Instr → OperandKind
  | .nop => .none
  | .loadA _ => .addr
  | .loadB _ => .addr
  | .storeA _ => .addr
  | .storeB _ => .addr
  | .add => .regs
  | .sub => .regs
  | .jump _ => .addr
  | .jumpNeg _ => .addr
  | .jumpZero _ => .addr
  | .addi _ => .data
  | .unknown _ => .none
  | .halt => .none

/-- The raw opcode bits (30_encoding.md R63); UNKNOWN keeps the opcode that was read (log 12). -/
def Instr.opbits : Instr → Nibble
  | .nop => 0b0000#4
  | .loadA _ => 0b0001#4
  | .loadB _ => 0b0010#4
  | .storeA _ => 0b0011#4
  | .storeB _ => 0b0100#4
  | .add => 0b0101#4
  | .sub => 0b0110#4
  | .jump _ => 0b0111#4
  | .jumpNeg _ => 0b1000#4
  | .jumpZero _ => 0b1001#4
  | .addi _ => 0b1010#4
  | .unknown op => op
  | .halt => 0b1111#4

/-- The resolved operand value, absent for the kinds None and Regs (30_encoding.md R61). -/
def Instr.value : Instr → Option Nibble
  | .nop => none
  | .loadA a => some a
  | .loadB a => some a
  | .storeA a => some a
  | .storeB a => some a
  | .add => none
  | .sub => none
  | .jump t => some t
  | .jumpNeg t => some t
  | .jumpZero t => some t
  | .addi imm => some imm
  | .unknown _ => none
  | .halt => none

/-- The four-part record of 10_state.md R32 that the instruction stands for. -/
def Instr.record (i : Instr) : DecodedRecord :=
  { mnemonic := i.mnemonic, kind := i.kind, opbits := i.opbits, value := i.value }

/-! The encoder (30_encoding.md R67). -/

/-- The operand field the encoder emits: the operand, `1001` for ADD and SUB, `0000` for NOP and HALT
(30_encoding.md R67). R67 gives UNKNOWN no encoding: `0000` is a DESIGN CHOICE (log 15). -/
def Instr.operandBits : Instr → Nibble
  | .nop => 0b0000#4
  | .loadA a => a
  | .loadB a => a
  | .storeA a => a
  | .storeB a => a
  | .add => 0b1001#4
  | .sub => 0b1001#4
  | .jump t => t
  | .jumpNeg t => t
  | .jumpZero t => t
  | .addi imm => imm
  | .unknown _ => 0b0000#4
  | .halt => 0b0000#4

/-- `enc(m, k) = op(m) ++ k` (30_encoding.md R67). -/
def encode (i : Instr) : Byte := i.opbits ++ i.operandBits

/-! The opcode table's numbering of bits: one byte, bit 0 its least significant. -/

/-- The bytes of a table word of `nbits` bits, the first at the lowest address. -/
def layoutWord (nbits w : Nat) : List Byte :=
  (List.range (nbits / 8)).map fun k => BitVec.ofNat 8 (w >>> (8 * k))

/-- The instruction the decoder of the canonical configuration reads from a table word (log 3). -/
def decodeTableWord (nbits w : Nat) : Option Instr :=
  match decodeBytes Config.canonical (layoutWord nbits w) with
  | .ok (i, _) => some i
  | .error _   => none

end Sys2Proof
end

