-- ==== Sys2Proof/Machine/State.lean ====
section
/-! DEFINITION. The whole state of the engine (10_state.md R17), the reasons to stop, and the state at power-on. -/

namespace Sys2Proof.Machine

/-- The memory, as address and byte pairs in canonical form: addresses strictly rising and below 16, no byte
equal to 0, which is what an unlisted address reads as (10_state.md R18, R20; log 16). -/
abbrev Memory := List Host.Cell

/-- The two general registers (10_state.md R21, R22, R23). -/
inductive Reg where
  | a | b
  deriving DecidableEq, Repr

/-- The engine's state (10_state.md R17), and the machine's configuration (00_scope.md R8), which is not
state of the spec and which no command writes (log 1). -/
@[ext]
structure State where
  /-- `A` (R21). -/
  regA        : Byte
  /-- `B` (R22). -/
  regB        : Byte
  /-- `IAR`, the program counter (R24). -/
  iar         : Addr
  /-- `IR.op` (R26). -/
  irOp        : Nibble
  /-- `IR.opr` (R26). -/
  irOpr       : Nibble
  /-- `Z` (R27). -/
  flagZ       : Bool
  /-- `N` (R28). -/
  flagN       : Bool
  /-- `O` (R29). -/
  flagO       : Bool
  /-- `halted` (R33). -/
  halted      : Bool
  /-- `last_decoded`, or absent (R32; log 7). -/
  lastDecoded : Option Instr
  /-- `jumped`, the jump-occurred marker (R34). -/
  jumped      : Bool
  /-- `mem[0..15]` (R18). -/
  mem         : Memory
  /-- `LOAD_FLAG_POLICY` and `ADDI_PRESENT` (00_scope.md R8). -/
  config      : Config
  deriving DecidableEq, Repr

/-- The reasons the machine can stop with a fault: NONE. The engine has no trap (60_exceptions.md R117), no
instruction can form a bad address (20_memory.md R46), and the host's errors are responses that change no
state (R115, R116). Safe: nothing is raised. -/
inductive Fault where
  deriving DecidableEq, Repr

/-- The reasons an instruction has no meaning. -/
inductive Refusal where
  /-- An arm of `exec` whose instruction is not modelled yet, by its mnemonic. Safe. No arm raises it: every
  instruction has its meaning. -/
  | notModelled (mnemonic : String)
  deriving DecidableEq, Repr

/-- The machine at power-on, which is the state a full reset leaves (10_state.md R39, 70_reset_and_hazards.md
R134; the register values at power-on are the spec's own choice D9, log 4), in the canonical configuration
(00_scope.md R8; log 2). -/
def State.reset : State :=
  { regA := 0#8, regB := 0#8, iar := 0#4, irOp := 0#4, irOpr := 0#4,
    flagZ := false, flagN := false, flagO := false, halted := false,
    lastDecoded := none, jumped := false, mem := [], config := Config.canonical }

end Sys2Proof.Machine
end

