-- ==== Sys2Proof/Machine/Ops.lean ====
section
/-! DEFINITION. The shared operations over memory, registers and control state: one home for each access
(00_scope.md R11), the execute entry (40_cycle.md R75), the halt (60_exceptions.md R118) and the two resets
that leave it (70_reset_and_hazards.md R131, R132). -/

namespace Sys2Proof.Machine

/-! ### Memory cells -/

/-- The byte at an address; an unlisted address reads as 0 (10_state.md R20). -/
def Memory.read : Memory → Nat → Byte
  | [], _ => 0#8
  | (k, v) :: rest, a => if k = a then v else Memory.read rest a

/-- One cell set, keeping the canonical form: writing 0 removes the entry. -/
def Memory.write : Memory → Nat → Byte → Memory
  | [], a, v => if v = 0#8 then [] else [(a, v)]
  | (k, w) :: rest, a, v =>
    if a < k then (if v = 0#8 then (k, w) :: rest else (a, v) :: (k, w) :: rest)
    else if a = k then (if v = 0#8 then rest else (a, v) :: rest)
    else (k, w) :: Memory.write rest a v

/-- The canonical form, of the entries from address `lo` up. -/
def Memory.wfFrom (lo : Nat) : Memory → Bool
  | [] => true
  | (k, v) :: rest => decide (lo ≤ k) && decide (k < 16) && v != 0#8 && Memory.wfFrom (k + 1) rest

/-- The canonical form: addresses strictly rising and below 16, no listed byte 0. -/
def Memory.wf (m : Memory) : Bool := Memory.wfFrom 0 m

namespace State

/-- `MemRead(a, 1)` (00_scope.md R11). -/
def memRead (s : State) (a : Addr) : Byte := Memory.read s.mem a.toNat

/-- `MemWrite(a, 1, v)` (00_scope.md R11). -/
def memWrite (s : State) (a : Addr) (v : Byte) : State :=
  { s with mem := Memory.write s.mem a.toNat v }

/-! ### Registers and flags -/

/-- `reg(r)` (00_scope.md R11). -/
def readReg (s : State) : Reg → Byte
  | .a => s.regA
  | .b => s.regB

/-- `reg(r) <- v` (00_scope.md R11). -/
def writeReg (s : State) : Reg → Byte → State
  | .a, v => { s with regA := v }
  | .b, v => { s with regB := v }

/-- `IAR <- t`. -/
def setIar (s : State) (t : Addr) : State := { s with iar := t }

/-- `IR.op <- op`, `IR.opr <- opr` (10_state.md R26). -/
def setIr (s : State) (op opr : Nibble) : State := { s with irOp := op, irOpr := opr }

/-- `Z <- z`, `N <- n`. -/
def setFlagsZN (s : State) (z n : Bool) : State := { s with flagZ := z, flagN := n }

/-- `O <- o`. -/
def setFlagO (s : State) (o : Bool) : State := { s with flagO := o }

/-- `halted <- h`. -/
def setHalted (s : State) (h : Bool) : State := { s with halted := h }

/-- `last_decoded <- d`. -/
def setLastDecoded (s : State) (d : Option Instr) : State := { s with lastDecoded := d }

/-- `jumped <- j`. -/
def setJumped (s : State) (j : Bool) : State := { s with jumped := j }

/-! ### Control -/

/-- What `execute()` does before the instruction's own arm: the decoded instruction is consumed and O is
cleared (40_cycle.md R75, R76; log 8, 20). -/
def enterExecute (s : State) : State := (s.setLastDecoded none).setFlagO false

/-- `halt` (00_scope.md R12): the whole of the halt beside the execute entry (60_exceptions.md R118). The
engine has no other exception entry (R117). -/
def halt (s : State) : State := s.setHalted true

/-- A taken jump: IAR gets the target and the jump is marked (43_control.md R107). -/
def takeJump (s : State) (t : Addr) : State := (s.setIar t).setJumped true

/-- `reset(false)`, the register reset (70_reset_and_hazards.md R131): the way out of a halt that keeps memory. -/
def registerReset (s : State) : State :=
  { regA := 0#8, regB := 0#8, iar := 0#4, irOp := 0#4, irOpr := 0#4,
    flagZ := false, flagN := false, flagO := false, halted := false,
    lastDecoded := none, jumped := false, mem := s.mem, config := s.config }

/-- `reset(true)`, the full reset: the register reset, then every cell zeroed (70_reset_and_hazards.md R132).
A memory of zeros lists nothing. -/
def fullReset (s : State) : State := { s.registerReset with mem := [] }

end State
end Sys2Proof.Machine
end

