-- ==== Sys2Proof/Machine/Operands.lean ====
section
/-! DEFINITION. The operand forms (30_encoding.md R61): address, register pair, immediate; kind None has none. -/

namespace Sys2Proof.Machine

/-- Kind Addr: the effective address of a LOAD or STORE and the target of a jump is the operand field itself
(41_load_store.md R99, 43_control.md R110). -/
def effectiveAddress (opr : Nibble) : Addr := opr

/-- Kind Data: the immediate, zero-extended to 8 bits (30_encoding.md R61). -/
def immediate (opr : Nibble) : Byte := opr.setWidth 8

/-- Kind Regs: the implicit operand pair of ADD and SUB, first operand A and second operand B
(30_encoding.md R61, R62; 42_alu.md R100, R101). -/
def State.regsPair (s : State) : Byte × Byte := (s.readReg .a, s.readReg .b)

end Sys2Proof.Machine
end

