-- ==== Sys2Proof/Machine/Flags.lean ====
section
/-! DEFINITION. The arithmetic and the flag logic (10_state.md R31, 42_alu.md R100 to R106). -/

namespace Sys2Proof.Machine

/-- The result of an addition: the exact 9-bit sum, masked to 8 bits (42_alu.md R100). -/
def addResult (x y : Byte) : Byte := (x.setWidth 9 + y.setWidth 9).extractLsb' 0 8

/-- The result of a subtraction: the exact difference of the unsigned values, modulo 256 (42_alu.md R101). -/
def subResult (x y : Byte) : Byte := BitVec.ofInt 8 ((x.toNat : Int) - (y.toNat : Int))

/-- Signed overflow of `r = x + y`: the operands have one sign and the result the other (42_alu.md R100). -/
def addOverflow (x y r : Byte) : Bool := (x.getLsbD 7 == y.getLsbD 7) && (r.getLsbD 7 != x.getLsbD 7)

/-- Signed overflow of `r = x - y`: the operand signs differ and the result has not the sign of `x`
(42_alu.md R101). -/
def subOverflow (x y r : Byte) : Bool := (x.getLsbD 7 != y.getLsbD 7) && (r.getLsbD 7 != x.getLsbD 7)

/-- `setZN(v)` (10_state.md R31): Z if `v` is 0, N its bit 7. -/
def State.setZN (s : State) (v : Byte) : State := s.setFlagsZN (v == 0#8) (v.getLsbD 7)

/-- Whether a LOAD of a register writes Z and N, by `LOAD_FLAG_POLICY` (00_scope.md R8; 41_load_store.md R95,
R96; log 22). -/
def loadWritesFlags : LoadFlagPolicy → Reg → Bool
  | .none,  _  => false
  | .both,  _  => true
  | .aOnly, .a => true
  | .aOnly, .b => false

/-- The flags after a LOAD of `v` into `r`: `setZN(v)` where the policy says so, else unchanged. -/
def State.setLoadFlags (s : State) (r : Reg) (v : Byte) : State :=
  if loadWritesFlags s.config.loadFlagPolicy r then s.setZN v else s

/-- What an ALU instruction writes: O, then A, then Z and N from the masked result (42_alu.md R100). -/
def State.writeAluResult (s : State) (r : Byte) (overflow : Bool) : State :=
  ((s.setFlagO overflow).writeReg .a r).setZN r

end Sys2Proof.Machine
end

