-- ==== Sys2Proof/Machine/Alu.lean ====
section
/-! DEFINITION. ADD, SUB, ADDI (42_alu.md). -/

namespace Sys2Proof.Machine

/-- An addition of `x` and `y` into A, with its flags (42_alu.md R100). -/
def State.aluAdd (s : State) (x y : Byte) : State :=
  s.writeAluResult (addResult x y) (addOverflow x y (addResult x y))

/-- A subtraction of `y` from `x` into A, with its flags (42_alu.md R101). -/
def State.aluSub (s : State) (x y : Byte) : State :=
  s.writeAluResult (subResult x y) (subOverflow x y (subResult x y))

/-- ADD (42_alu.md R100). -/
def execAdd (s : State) : Host.Outcome State Fault Refusal :=
  .next (s.enterExecute.aluAdd s.enterExecute.regsPair.1 s.enterExecute.regsPair.2)

/-- SUB (42_alu.md R101). -/
def execSub (s : State) : Host.Outcome State Fault Refusal :=
  .next (s.enterExecute.aluSub s.enterExecute.regsPair.1 s.enterExecute.regsPair.2)

/-- ADDI imm (42_alu.md R102; the semantics are the spec's own decision D4, log 10). Whether the opcode
reaches this arm is the decoder's matter (log 21). -/
def execAddi (imm : Nibble) (s : State) : Host.Outcome State Fault Refusal :=
  .next (s.enterExecute.aluAdd (s.enterExecute.readReg .a) (immediate imm))

end Sys2Proof.Machine
end

