-- ==== Sys2Proof/Machine/Control.lean ====
section
/-! DEFINITION. JUMP, JUMP_NEG, JUMP_ZERO (43_control.md). -/

namespace Sys2Proof.Machine

/-- A jump to `t` taken on a condition; not taken, it changes nothing (43_control.md R108, R109). -/
def State.jumpIf (s : State) (taken : Bool) (t : Addr) : State :=
  if taken then s.takeJump t else s

/-- JUMP t (43_control.md R107). -/
def execJump (t : Addr) (s : State) : Host.Outcome State Fault Refusal :=
  .next (s.enterExecute.takeJump (effectiveAddress t))

/-- JUMP_NEG t (43_control.md R108). -/
def execJumpNeg (t : Addr) (s : State) : Host.Outcome State Fault Refusal :=
  .next (s.enterExecute.jumpIf s.enterExecute.flagN (effectiveAddress t))

/-- JUMP_ZERO t (43_control.md R109). -/
def execJumpZero (t : Addr) (s : State) : Host.Outcome State Fault Refusal :=
  .next (s.enterExecute.jumpIf s.enterExecute.flagZ (effectiveAddress t))

end Sys2Proof.Machine
end

