-- ==== Sys2Proof/Machine/LoadStore.lean ====
section
/-! DEFINITION. LOAD_A, LOAD_B, STORE_A, STORE_B (41_load_store.md). -/

namespace Sys2Proof.Machine

/-- A load of the cell at `a` into register `r`, with the flags the policy gives (41_load_store.md R95, R96). -/
def State.load (s : State) (r : Reg) (a : Addr) : State :=
  (s.writeReg r (s.memRead a)).setLoadFlags r (s.memRead a)

/-- LOAD_A a (41_load_store.md R95). -/
def execLoadA (a : Addr) (s : State) : Host.Outcome State Fault Refusal :=
  .next (s.enterExecute.load .a (effectiveAddress a))

/-- LOAD_B a (41_load_store.md R96). -/
def execLoadB (a : Addr) (s : State) : Host.Outcome State Fault Refusal :=
  .next (s.enterExecute.load .b (effectiveAddress a))

/-- STORE_A a (41_load_store.md R97). -/
def execStoreA (a : Addr) (s : State) : Host.Outcome State Fault Refusal :=
  .next (s.enterExecute.memWrite (effectiveAddress a) (s.enterExecute.readReg .a))

/-- STORE_B a (41_load_store.md R98). -/
def execStoreB (a : Addr) (s : State) : Host.Outcome State Fault Refusal :=
  .next (s.enterExecute.memWrite (effectiveAddress a) (s.enterExecute.readReg .b))

end Sys2Proof.Machine
end

