-- ==== Sys2Proof/Machine/System.lean ====
section
/-! DEFINITION. NOP, HALT and the UNKNOWN opcodes (44_system.md). -/

namespace Sys2Proof.Machine

/-- NOP (44_system.md R111): nothing but the execute entry, which clears O. -/
def execNop (s : State) : Host.Outcome State Fault Refusal :=
  .next s.enterExecute

/-- HALT (44_system.md R112). -/
def execHalt (s : State) : Host.Outcome State Fault Refusal :=
  .next s.enterExecute.halt

/-- UNKNOWN (44_system.md R113): the engine halts; whatever the opcode, the effect is the same. The response
UnknownOpcode is `executeResponse` of Machine/Commands.lean (log 6). -/
def execUnknown (_op : Nibble) (s : State) : Host.Outcome State Fault Refusal :=
  .next s.enterExecute.halt

end Sys2Proof.Machine
end

