-- ==== Sys2Proof/Machine/Dispatch.lean ====
section
/-! DEFINITION. The dispatch of `execute()` on the decoded instruction (40_cycle.md R75). -/

namespace Sys2Proof.Machine

/-- The effect of executing a decoded instruction on an engine that is not halted (40_cycle.md R75). -/
def exec (i : Instr) (s : State) : Host.Outcome State Fault Refusal :=
  match i with
  | .nop => Sys2Proof.Machine.execNop s
  | .loadA a => Sys2Proof.Machine.execLoadA a s
  | .loadB a => Sys2Proof.Machine.execLoadB a s
  | .storeA a => Sys2Proof.Machine.execStoreA a s
  | .storeB a => Sys2Proof.Machine.execStoreB a s
  | .add => Sys2Proof.Machine.execAdd s
  | .sub => Sys2Proof.Machine.execSub s
  | .jump t => Sys2Proof.Machine.execJump t s
  | .jumpNeg t => Sys2Proof.Machine.execJumpNeg t s
  | .jumpZero t => Sys2Proof.Machine.execJumpZero t s
  | .addi imm => Sys2Proof.Machine.execAddi imm s
  | .unknown op => Sys2Proof.Machine.execUnknown op s
  | .halt => Sys2Proof.Machine.execHalt s

end Sys2Proof.Machine
end

