-- ==== Sys2Proof/Machine/Commands.lean ====
section
/-! DEFINITION. The host's commands (40_cycle.md R70): the phases of the instruction cycle, the combined step,
the run driver, the resets and the memory accessors, each with its response and output data
(60_exceptions.md R115). -/

namespace Sys2Proof.Machine

/-- The response codes (60_exceptions.md R115). -/
inductive Response where
  | ok | invalidAddress | invalidOperand | unknownOpcode | noDecodedInstruction | halted
  deriving DecidableEq, Repr

/-- The number of a response; the numbering is the spec's own decision D13 (60_exceptions.md R115; log 23). -/
def Response.code : Response → Nat
  | .ok => 0
  | .invalidAddress => 1
  | .invalidOperand => 2
  | .unknownOpcode => 3
  | .noDecodedInstruction => 4
  | .halted => 5

/-- The output data of a command, besides its response (40_cycle.md R70). -/
inductive Output where
  /-- No data. -/
  | nothing
  /-- The byte of `fetch` or `readMemory`. -/
  | byte (b : Byte)
  /-- The decoded instruction of `decode`. -/
  | decoded (r : DecodedRecord)
  /-- The mnemonic `loadInstruction` echoes. -/
  | echo (m : Mnemonic)
  deriving DecidableEq, Repr

/-- What a command answers: its response, its output data and the state it leaves. -/
structure CommandResult where
  response : Response
  output   : Output
  state    : State
  deriving DecidableEq, Repr

/-- An error response: no data, and no state change (00_scope.md R12, 60_exceptions.md R116). -/
def State.raise (s : State) (r : Response) : CommandResult := ⟨r, .nothing, s⟩

/-! ### The phases -/

/-- `fetch()` (40_cycle.md R72): IR gets the byte at IAR, which does not move. -/
def fetch (s : State) : CommandResult :=
  if s.halted then s.raise .halted
  else ⟨.ok, .byte (s.memRead s.iar), s.setIr (opField (s.memRead s.iar)) (oprField (s.memRead s.iar))⟩

/-- `decode()` (40_cycle.md R73): `last_decoded` gets the instruction in IR. -/
def decode (s : State) : CommandResult :=
  if s.halted then s.raise .halted
  else
    ⟨.ok, .decoded (decodeFields s.config s.irOp s.irOpr).record,
      s.setLastDecoded (some (decodeFields s.config s.irOp s.irOpr))⟩

/-- What `execute()` returns for an instruction (40_cycle.md R75, 44_system.md R113; log 6). -/
def executeResponse : Instr → Response
  | .nop => .ok
  | .loadA _ => .ok
  | .loadB _ => .ok
  | .storeA _ => .ok
  | .storeB _ => .ok
  | .add => .ok
  | .sub => .ok
  | .jump _ => .ok
  | .jumpNeg _ => .ok
  | .jumpZero _ => .ok
  | .addi _ => .ok
  | .unknown _ => .unknownOpcode
  | .halt => .ok

/-- `execute()` (40_cycle.md R75): Halted first, then NoDecodedInstruction (R84; log 9), then the arm of the
decoded instruction; it reads `last_decoded`, never IR. -/
def execute (s : State) : Host.Outcome CommandResult Fault Refusal :=
  if s.halted then .next (s.raise .halted)
  else match s.lastDecoded with
    | none => .next (s.raise .noDecodedInstruction)
    | some i =>
      match exec i s with
      | .next t => .next ⟨executeResponse i, .nothing, t⟩
      | .fault f => .fault f
      | .refused r => .refused r

/-- `incrementIAR()` (40_cycle.md R78): IAR advances modulo 16 unless a jump occurred; the marker is cleared
in either case. A halt blocks it (log 5). -/
def incrementIAR (s : State) : CommandResult :=
  if s.halted then s.raise .halted
  else ⟨.ok, .nothing, (if s.jumped then s else s.setIar (s.iar + 1#4)).setJumped false⟩

/-! ### One instruction cycle, and a run -/

/-- `step()` (40_cycle.md R80): fetch, decode, execute, incrementIAR as one command that returns execute's
response (log 18). -/
def stepCycle (s : State) : Host.Outcome CommandResult Fault Refusal :=
  if s.halted then .next (s.raise .halted)
  else match execute (decode (fetch s).state).state with
    | .next r => .next ⟨r.response, .nothing, (incrementIAR r.state).state⟩
    | .fault f => .fault f
    | .refused r => .refused r

/-- `run(fuel)` (40_cycle.md R81): step, while fuel is left and the engine is not halted. -/
def run : Nat → State → Host.Outcome State Fault Refusal
  | 0, s => .next s
  | fuel + 1, s =>
    if s.halted then .next s
    else match stepCycle s with
      | .next r => run fuel r.state
      | .fault f => .fault f
      | .refused r => .refused r

/-! ### Memory accessors -/

/-- `readMemory(a)` (20_memory.md R42): out of range is InvalidAddress with no data (log 13). -/
def readMemory (a : Int) (s : State) : CommandResult :=
  if 0 ≤ a ∧ a ≤ 15 then ⟨.ok, .byte (s.memRead (BitVec.ofInt 4 a)), s⟩
  else s.raise .invalidAddress

/-- The write both writing accessors perform (20_memory.md R43), with the output of the one that asks: the
address is checked first, then the value (60_exceptions.md R121; log 13). -/
def writeCell (a v : Int) (out : Output) (s : State) : CommandResult :=
  if 0 ≤ a ∧ a ≤ 15 then
    if 0 ≤ v ∧ v ≤ 255 then ⟨.ok, out, s.memWrite (BitVec.ofInt 4 a) (BitVec.ofInt 8 v)⟩
    else s.raise .invalidOperand
  else s.raise .invalidAddress

/-- `writeMemory(a, v)` (20_memory.md R43). -/
def writeMemory (a v : Int) (s : State) : CommandResult := writeCell a v .nothing s

/-- `loadInstruction(a, v)` (20_memory.md R44): the write, and the echo of the opcode's mnemonic. -/
def loadInstruction (a v : Int) (s : State) : CommandResult :=
  writeCell a v (.echo (tableMnemonic s.config (opField (BitVec.ofInt 8 v)))) s

/-- The bit a character of the text form stands for (20_memory.md R48). -/
def bitOfChar (c : Char) : Option Bool :=
  if c = '1' then some true else if c = '0' then some false else none

/-- The number a string of `0` and `1` spells, leftmost digit the highest (20_memory.md R48). -/
def bitsValue : List Char → Nat → Option Nat
  | [], acc => some acc
  | c :: cs, acc =>
    match bitOfChar c with
    | some bit => bitsValue cs (2 * acc + bit.toNat)
    | none => none

/-- The text form of a cell: exactly 8 characters `0` or `1`, the leftmost bit 7 (20_memory.md R48; log 14). -/
def parseCell (text : List Char) : Option Nat :=
  if text.length = 8 then bitsValue text 0 else none

/-- `writeMemory` with the value in text form (20_memory.md R48): a malformed text is an InvalidOperand, which
is checked after the address (R43; log 14). -/
def writeMemoryText (a : Int) (text : List Char) (s : State) : CommandResult :=
  match parseCell text with
  | some v => writeMemory a v s
  | none => if 0 ≤ a ∧ a ≤ 15 then s.raise .invalidOperand else s.raise .invalidAddress

/-- `loadInstruction` with the value in text form (20_memory.md R48; log 14). -/
def loadInstructionText (a : Int) (text : List Char) (s : State) : CommandResult :=
  match parseCell text with
  | some v => loadInstruction a v s
  | none => if 0 ≤ a ∧ a ≤ 15 then s.raise .invalidOperand else s.raise .invalidAddress

/-! ### The command port -/

/-- The commands the host can issue (40_cycle.md R70; 20_memory.md R48). -/
inductive Command where
  | fetch
  | decode
  | execute
  | incrementIAR
  | step
  | reset (fullReset : Bool)
  | readMemory (a : Int)
  | writeMemory (a v : Int)
  | loadInstruction (a v : Int)
  | writeMemoryText (a : Int) (text : List Char)
  | loadInstructionText (a : Int) (text : List Char)
  deriving DecidableEq, Repr

/-- One command, one atomic transition (40_cycle.md R70, 20_memory.md R54). -/
def runCommand (c : Command) (s : State) : Host.Outcome CommandResult Fault Refusal :=
  match c with
  | .fetch => .next (Sys2Proof.Machine.fetch s)
  | .decode => .next (Sys2Proof.Machine.decode s)
  | .execute => Sys2Proof.Machine.execute s
  | .incrementIAR => .next (Sys2Proof.Machine.incrementIAR s)
  | .step => stepCycle s
  | .reset false => .next ⟨.ok, .nothing, s.registerReset⟩
  | .reset true => .next ⟨.ok, .nothing, s.fullReset⟩
  | .readMemory a => .next (Sys2Proof.Machine.readMemory a s)
  | .writeMemory a v => .next (Sys2Proof.Machine.writeMemory a v s)
  | .loadInstruction a v => .next (Sys2Proof.Machine.loadInstruction a v s)
  | .writeMemoryText a text => .next (Sys2Proof.Machine.writeMemoryText a text s)
  | .loadInstructionText a text => .next (Sys2Proof.Machine.loadInstructionText a text s)

/-- Commands issued one after another (20_memory.md R54): the state the last one leaves. -/
def runCommands : List Command → State → Host.Outcome State Fault Refusal
  | [], s => .next s
  | c :: cs, s =>
    match runCommand c s with
    | .next r => runCommands cs r.state
    | .fault f => .fault f
    | .refused r => .refused r

end Sys2Proof.Machine
end

