-- ==== Sys2Proof/Machine/Step.lean ====
section
/-! DEFINITION. The machine's step: one `step()` command (40_cycle.md R80). -/

namespace Sys2Proof.Machine

/-- One step of the machine: the state the command `step()` leaves (40_cycle.md R80). On a halted engine that
is the state itself (R82; log 5). -/
def step (s : State) : Host.Outcome State Fault Refusal :=
  match stepCycle s with
  | .next r => .next r.state
  | .fault f => .fault f
  | .refused r => .refused r

/-- The state with an instruction of the opcode table's numbering in the cell the next fetch reads, on an
engine out of the halt, which the fetch needs (70_reset_and_hazards.md R136; log 17). -/
def State.withFetchWord (s : State) (nbits w : Nat) : State :=
  (s.memWrite s.iar ((layoutWord nbits w).headD 0#8)).setHalted false

end Sys2Proof.Machine
end

