-- ==== Sys2Proof/Safety.lean ====
section
/-! DEFINITION. What counts as a safe run, in the terms claims use (60_exceptions.md R115, 40_cycle.md R81,
93_implementation_defined.md I7). -/

namespace Sys2Proof.Safety

open Sys2Proof.Machine

/-- The run has ended: the halt is the only final state (40_cycle.md R81). -/
def Ended (s : State) : Prop := s.halted = true

/-- The next step does not execute an unknown opcode: it is answered, with another response. -/
def SafeStep (s : State) : Prop :=
  ∃ r, stepCycle s = .next r ∧ r.response ≠ .unknownOpcode

/-- `fuel` steps, none of which executes an unknown opcode (93_implementation_defined.md I7). -/
def SafeRun : Nat → State → Prop
  | 0, _ => True
  | fuel + 1, s => SafeStep s ∧ ∀ t, step s = .next t → SafeRun fuel t

/-- A run of `fuel` steps that ends, at HALT and not at an unknown opcode. -/
def HaltsSafely (fuel : Nat) (s : State) : Prop :=
  SafeRun fuel s ∧ ∃ t, Machine.run fuel s = .next t ∧ Ended t

/-- What every reachable state of the engine satisfies: the memory is in its canonical form, and a decoded
instruction is one this machine's decoder can produce (10_state.md R18, R32; 30_encoding.md R64). -/
def Inv (s : State) : Prop :=
  Memory.wf s.mem = true ∧ ∀ i, s.lastDecoded = some i → i.wellFormed s.config = true

end Sys2Proof.Safety
end

