-- ==== Sys2Proof/Certificates/Slice0/Obligations.lean ====
section
/-! DEFINITION. The statements for the provers, from the numbered rules of spec/. -/

open Sys2Proof Sys2Proof.Machine

/-! ### Encoding -/

/-- 30_encoding.md R63, R67: decoding the encoding of a well-formed instruction gives the instruction back, in
every configuration. For UNKNOWN the encoder's low nibble is the model's choice (log 15). -/
def Obligations.DecodeOfEncodeIsTheInstruction : Prop :=
  ∀ (cfg : Config) (i : Instr), i.wellFormed cfg = true → decodeByte cfg (encode i) = i

/-- 30_encoding.md R61, R64, R66: every byte decodes to an instruction of the configuration, which keeps the
byte's opcode and, where it has an operand, the byte's operand field. -/
def Obligations.DecodedByteKeepsItsFields : Prop :=
  ∀ (cfg : Config) (b : Byte),
    (decodeByte cfg b).wellFormed cfg = true ∧
    (decodeByte cfg b).opbits.toNat = b.toNat / 16 ∧
    ∀ v, (decodeByte cfg b).value = some v → v.toNat = b.toNat % 16

/-- 30_encoding.md R63: the opcode table, row by row, for every value of the operand field, as the record decode
returns; and the canonical operand field of ADD and SUB. That the UNKNOWN record has kind None and no value is the
spec's decision D12 (log 12); that every operand field of NOP, ADD, SUB and HALT gives the same instruction is its
decision D5 (log 11). -/
def Obligations.OpcodeTableMapsOpcodeToMnemonicAndKind : Prop :=
  (∀ (cfg : Config) (opr : Nibble),
    (decodeByte cfg (0b0000#4 ++ opr)).record = ⟨.nop, .none, 0b0000#4, none⟩ ∧
    (decodeByte cfg (0b0001#4 ++ opr)).record = ⟨.loadA, .addr, 0b0001#4, some opr⟩ ∧
    (decodeByte cfg (0b0010#4 ++ opr)).record = ⟨.loadB, .addr, 0b0010#4, some opr⟩ ∧
    (decodeByte cfg (0b0011#4 ++ opr)).record = ⟨.storeA, .addr, 0b0011#4, some opr⟩ ∧
    (decodeByte cfg (0b0100#4 ++ opr)).record = ⟨.storeB, .addr, 0b0100#4, some opr⟩ ∧
    (decodeByte cfg (0b0101#4 ++ opr)).record = ⟨.add, .regs, 0b0101#4, none⟩ ∧
    (decodeByte cfg (0b0110#4 ++ opr)).record = ⟨.sub, .regs, 0b0110#4, none⟩ ∧
    (decodeByte cfg (0b0111#4 ++ opr)).record = ⟨.jump, .addr, 0b0111#4, some opr⟩ ∧
    (decodeByte cfg (0b1000#4 ++ opr)).record = ⟨.jumpNeg, .addr, 0b1000#4, some opr⟩ ∧
    (decodeByte cfg (0b1001#4 ++ opr)).record = ⟨.jumpZero, .addr, 0b1001#4, some opr⟩ ∧
    (decodeByte cfg (0b1010#4 ++ opr)).record =
      (if cfg.addiPresent then ⟨.addi, .data, 0b1010#4, some opr⟩ else ⟨.unknown, .none, 0b1010#4, none⟩) ∧
    (decodeByte cfg (0b1011#4 ++ opr)).record = ⟨.unknown, .none, 0b1011#4, none⟩ ∧
    (decodeByte cfg (0b1100#4 ++ opr)).record = ⟨.unknown, .none, 0b1100#4, none⟩ ∧
    (decodeByte cfg (0b1101#4 ++ opr)).record = ⟨.unknown, .none, 0b1101#4, none⟩ ∧
    (decodeByte cfg (0b1110#4 ++ opr)).record = ⟨.unknown, .none, 0b1110#4, none⟩ ∧
    (decodeByte cfg (0b1111#4 ++ opr)).record = ⟨.halt, .none, 0b1111#4, none⟩) ∧
  encode .add = 0b0101#4 ++ 0b1001#4 ∧ encode .sub = 0b0110#4 ++ 0b1001#4

/-- Words written out from the spec's encodings (30_encoding.md R65, R67; 95_test_vectors.md V1). -/
def Obligations.SpelledWordsDecode : Prop :=
  decodeByte .canonical 0b00010101#8 = .loadA 5#4 ∧
  decodeByte .canonical 0b01001111#8 = .storeB 15#4 ∧
  decodeByte .canonical 0b01011001#8 = .add ∧
  decodeByte .canonical 0b10010110#8 = .jumpZero 6#4 ∧
  decodeByte .canonical 0b11110000#8 = .halt ∧
  decodeByte .canonical 0b10100101#8 = .unknown 10#4 ∧
  decodeByte ⟨.none, true⟩ 0b10100101#8 = .addi 5#4

/-- 10_state.md R32, 40_cycle.md R74: the four-part record says which instruction was decoded, so holding the
instruction in place of the record loses nothing (log 7). -/
def Obligations.RecordDeterminesTheInstruction : Prop :=
  ∀ (cfg : Config) (i j : Instr), i.wellFormed cfg = true → j.wellFormed cfg = true →
    i.record = j.record → i = j

/-! ### Loads and stores -/

/-- 41_load_store.md R95: LOAD_A completes on every state and changes A, O, and Z and N as the policy says;
every other element is unchanged, the memory among them. The policy parameter is the spec's decision D2
(log 22), the consumed `last_decoded` its decision D7 (log 8). -/
def Obligations.LoadACompletesWithTheLoadedByte : Prop :=
  ∀ (s : State) (a : Addr) (v : Byte), v = Memory.read s.mem a.toNat →
    exec (.loadA a) s = .next { s with
      regA := v, flagO := false, lastDecoded := none,
      flagZ := if s.config.loadFlagPolicy = .none then s.flagZ else decide (v = 0#8),
      flagN := if s.config.loadFlagPolicy = .none then s.flagN else decide (128 ≤ v.toNat) }

/-- 41_load_store.md R96: LOAD_B completes on every state and changes B, O, and Z and N under BOTH only; every
other element is unchanged, A and the memory among them. Policy: D2 (log 22); `last_decoded`: D7 (log 8). -/
def Obligations.LoadBCompletesWithTheLoadedByte : Prop :=
  ∀ (s : State) (a : Addr) (v : Byte), v = Memory.read s.mem a.toNat →
    exec (.loadB a) s = .next { s with
      regB := v, flagO := false, lastDecoded := none,
      flagZ := if s.config.loadFlagPolicy = .both then decide (v = 0#8) else s.flagZ,
      flagN := if s.config.loadFlagPolicy = .both then decide (128 ≤ v.toNat) else s.flagN }

/-- 41_load_store.md R97: STORE_A is encoded as 0011 aaaa, completes on every state, writes A to the cell and
no other cell, and leaves every other element unchanged but O, which is 0; a fetch of the cell sees the stored
byte. `last_decoded` is left open here; see `ExecuteConsumesTheDecodedInstruction`. -/
def Obligations.StoreACompletesWithTheCellWritten : Prop :=
  ∀ (s : State) (a : Addr),
    (∀ cfg, encode (.storeA a) = 0b0011#4 ++ a ∧ decodeByte cfg (0b0011#4 ++ a) = .storeA a) ∧
    ∃ t, exec (.storeA a) s = .next t ∧
      t = { s with flagO := false, mem := t.mem, lastDecoded := t.lastDecoded } ∧
      (Memory.wf s.mem = true → Memory.read t.mem (effectiveAddress a).toNat = s.regA ∧
        (s.halted = false → (fetch (t.setIar a)).output = .byte s.regA)) ∧
      ∀ x, x ≠ (effectiveAddress a).toNat → Memory.read t.mem x = Memory.read s.mem x

/-- 41_load_store.md R98: STORE_B is encoded as 0100 aaaa, completes on every state, writes B to the cell and
no other cell, and leaves every other element unchanged but O, which is 0; a fetch of the cell sees the stored
byte. `last_decoded` is left open here; see `ExecuteConsumesTheDecodedInstruction`. -/
def Obligations.StoreBCompletesWithTheCellWritten : Prop :=
  ∀ (s : State) (a : Addr),
    (∀ cfg, encode (.storeB a) = 0b0100#4 ++ a ∧ decodeByte cfg (0b0100#4 ++ a) = .storeB a) ∧
    ∃ t, exec (.storeB a) s = .next t ∧
      t = { s with flagO := false, mem := t.mem, lastDecoded := t.lastDecoded } ∧
      (Memory.wf s.mem = true → Memory.read t.mem (effectiveAddress a).toNat = s.regB ∧
        (s.halted = false → (fetch (t.setIar a)).output = .byte s.regB)) ∧
      ∀ x, x ≠ (effectiveAddress a).toNat → Memory.read t.mem x = Memory.read s.mem x

/-! ### Arithmetic -/

/-- 42_alu.md R100: ADD completes on every state; A is the exact sum modulo 256, Z and N come from it, O is the
sign rule, and nothing else changes. That every low nibble is ADD is the spec's decision D5 (log 11), the
consumed `last_decoded` its decision D7 (log 8). -/
def Obligations.AddCompletesWithTheSumAndFlags : Prop :=
  (∀ cfg (low : Nibble), decodeByte cfg (0b0101#4 ++ low) = .add) ∧
  ∀ (s : State) (r : Byte), r = BitVec.ofNat 8 ((s.regA.toNat + s.regB.toNat) % 256) →
    exec .add s = .next { s with
      regA := r, flagZ := decide (r = 0#8), flagN := decide (128 ≤ r.toNat),
      flagO := decide (s.regA.msb = s.regB.msb ∧ r.msb ≠ s.regA.msb), lastDecoded := none }

/-- 42_alu.md R101: SUB completes on every state; A is the exact difference modulo 256, Z and N come from it, O
is the sign rule, and nothing else changes. D5 and D7 as for ADD (log 11, 8). -/
def Obligations.SubCompletesWithTheDifferenceAndFlags : Prop :=
  (∀ cfg (low : Nibble), decodeByte cfg (0b0110#4 ++ low) = .sub) ∧
  ∀ (s : State) (r : Byte), r = BitVec.ofNat 8 ((256 + s.regA.toNat - s.regB.toNat) % 256) →
    exec .sub s = .next { s with
      regA := r, flagZ := decide (r = 0#8), flagN := decide (128 ≤ r.toNat),
      flagO := decide (s.regA.msb ≠ s.regB.msb ∧ r.msb ≠ s.regA.msb), lastDecoded := none }

/-- 42_alu.md R102: ADDI completes on every state; A is the exact sum with the zero-extended immediate modulo
256, Z and N come from it, O is 1 exactly when A's bit 7 goes from 0 to 1, and nothing else changes. The whole
of ADDI's meaning is the spec's decision D4 (log 10); `last_decoded`: D7 (log 8). -/
def Obligations.AddiCompletesWithTheSumAndFlags : Prop :=
  ∀ (s : State) (imm : Nibble) (r : Byte), r = BitVec.ofNat 8 ((s.regA.toNat + imm.toNat) % 256) →
    exec (.addi imm) s = .next { s with
      regA := r, flagZ := decide (r = 0#8), flagN := decide (128 ≤ r.toNat),
      flagO := decide (s.regA.msb = false ∧ r.msb = true), lastDecoded := none }

/-- 42_alu.md R104 (the spec's own derivation): after ADD, SUB and ADDI, O is 1 exactly when the exact signed
result lies outside -128 to 127. -/
def Obligations.OverflowIsTheSignedRangeTest : Prop :=
  ∀ (s t : State),
    (exec .add s = .next t →
      t.flagO = decide (s.regA.toInt + s.regB.toInt < -128 ∨ 127 < s.regA.toInt + s.regB.toInt)) ∧
    (exec .sub s = .next t →
      t.flagO = decide (s.regA.toInt - s.regB.toInt < -128 ∨ 127 < s.regA.toInt - s.regB.toInt)) ∧
    (∀ imm, exec (.addi imm) s = .next t →
      t.flagO = decide (127 < s.regA.toInt + (imm.toNat : Int)))

/-! ### Control transfer -/

/-- 43_control.md R107: JUMP is encoded as 0111 tttt and completes on every state: IAR is the target, the jump
is marked, O is 0, and nothing else changes; the incrementIAR after it leaves IAR and clears the mark.
`last_decoded` is left open here; see `ExecuteConsumesTheDecodedInstruction`. -/
def Obligations.JumpCompletesAtTheTarget : Prop :=
  ∀ (s : State) (k : Addr),
    (∀ cfg, encode (.jump k) = 0b0111#4 ++ k ∧ decodeByte cfg (0b0111#4 ++ k) = .jump k) ∧
    ∃ t, exec (.jump k) s = .next t ∧
      t = { s with iar := k, jumped := true, flagO := false, lastDecoded := t.lastDecoded } ∧
      (s.halted = false → (incrementIAR t).state = { t with iar := k, jumped := false })

/-- 43_control.md R108: JUMP_NEG is encoded as 1000 tttt and completes on every state: with N = 1 as JUMP, with
N = 0 it changes nothing but O, and incrementIAR then advances IAR unless an older jump is still marked.
`last_decoded` is left open here; see `ExecuteConsumesTheDecodedInstruction`. -/
def Obligations.JumpNegCompletesOnBothFlagValues : Prop :=
  ∀ (s : State) (k : Addr),
    (∀ cfg, encode (.jumpNeg k) = 0b1000#4 ++ k ∧ decodeByte cfg (0b1000#4 ++ k) = .jumpNeg k) ∧
    ∃ t, exec (.jumpNeg k) s = .next t ∧
      t = { s with
        iar := if s.flagN then k else s.iar, jumped := if s.flagN then true else s.jumped,
        flagO := false, lastDecoded := t.lastDecoded } ∧
      (s.halted = false → s.flagN = false → s.jumped = false →
        (incrementIAR t).state.iar = BitVec.ofNat 4 ((s.iar.toNat + 1) % 16))

/-- 43_control.md R109: JUMP_ZERO is encoded as 1001 tttt and completes on every state: with Z = 1 as JUMP, with
Z = 0 it changes nothing but O, and incrementIAR then advances IAR unless an older jump is still marked.
`last_decoded` is left open here; see `ExecuteConsumesTheDecodedInstruction`. -/
def Obligations.JumpZeroCompletesOnBothFlagValues : Prop :=
  ∀ (s : State) (k : Addr),
    (∀ cfg, encode (.jumpZero k) = 0b1001#4 ++ k ∧ decodeByte cfg (0b1001#4 ++ k) = .jumpZero k) ∧
    ∃ t, exec (.jumpZero k) s = .next t ∧
      t = { s with
        iar := if s.flagZ then k else s.iar, jumped := if s.flagZ then true else s.jumped,
        flagO := false, lastDecoded := t.lastDecoded } ∧
      (s.halted = false → s.flagZ = false → s.jumped = false →
        (incrementIAR t).state.iar = BitVec.ofNat 4 ((s.iar.toNat + 1) % 16))

/-! ### NOP, HALT and the UNKNOWN opcodes -/

/-- 44_system.md R111: NOP completes on every state and changes nothing but O, which is 0, and the consumed
`last_decoded` (the spec's decision D7, log 8). -/
def Obligations.NopCompletesWithOnlyOverflowCleared : Prop :=
  ∀ s : State, exec .nop s = .next { s with flagO := false, lastDecoded := none }

/-- 44_system.md R112 and 60_exceptions.md R118: HALT completes on every state: O is 0, `last_decoded` absent
(D7, log 8), `halted` set, nothing else changes; the response is OK (D13, log 6), incrementIAR then changes nothing
(D6, log 5), and the host's memory accesses still work (D14, log 13). -/
def Obligations.HaltCompletesHalted : Prop :=
  ∀ s : State, ∃ t, exec .halt s = .next t ∧
    t = { s with flagO := false, lastDecoded := none, halted := true } ∧
    executeResponse .halt = .ok ∧
    incrementIAR t = ⟨.halted, .nothing, t⟩ ∧
    ∀ (a : Addr) (v : Byte),
      readMemory a.toNat t = ⟨.ok, .byte (Memory.read s.mem a.toNat), t⟩ ∧
      ∃ u, writeMemory a.toNat v.toNat t = ⟨.ok, .nothing, u⟩ ∧ u.halted = true ∧
        (Memory.wf s.mem = true → Memory.read u.mem a.toNat = v)

/-- 44_system.md R113 and 60_exceptions.md R118: executing an opcode with no table entry completes on every
state as HALT does, with the response UnknownOpcode (the spec's decision D13, log 6); the consumed `last_decoded`
is its decision D7 (log 8). -/
def Obligations.UnknownCompletesHalted : Prop :=
  ∀ (s : State) (op : Nibble),
    exec (.unknown op) s = .next { s with flagO := false, lastDecoded := none, halted := true } ∧
    executeResponse (.unknown op) = .unknownOpcode

/-- 30_encoding.md R64 and 44_system.md R113: an opcode with no table entry decodes with OK and halts the
engine when it is executed, at its own address, with UnknownOpcode (D6, D12, D13; log 5, 6, 12). -/
def Obligations.UnknownOpcodeFailsOnlyAtExecute : Prop :=
  ∀ (s : State) (op : Nibble), s.halted = false →
    decodeByte s.config (Memory.read s.mem s.iar.toNat) = .unknown op →
    (decode (fetch s).state).response = .ok ∧
    ∃ t, stepCycle s = .next ⟨.unknownOpcode, .nothing, t⟩ ∧
      t.halted = true ∧ t.iar = s.iar ∧ t.flagO = false ∧
      t.regA = s.regA ∧ t.regB = s.regB ∧ t.flagZ = s.flagZ ∧ t.flagN = s.flagN ∧ t.mem = s.mem

/-! ### What each element of the state is written by -/

/-- 10_state.md R21: A is written by LOAD_A, ADD, SUB, ADDI and a reset; only STORE_A, ADD, SUB and ADDI read it:
the other instructions, and the commands that execute none, do the same whatever A holds. What ADDI does is the
spec's decision D4 (log 10). -/
def Obligations.AccumulatorHasOnlyItsReadersAndWriters : Prop :=
  (∀ (i : Instr) (s t : State), exec i s = .next t → t.regA = match i with
    | .loadA a => Memory.read s.mem a.toNat
    | .add => s.regA + s.regB
    | .sub => s.regA - s.regB
    | .addi imm => s.regA + imm.setWidth 8
    | _ => s.regA) ∧
  (∀ s : State, s.registerReset.regA = 0#8 ∧ s.fullReset.regA = 0#8) ∧
  (∀ (s t : State) (a : Addr), Memory.wf s.mem = true → exec (.storeA a) s = .next t →
    Memory.read t.mem a.toNat = s.regA) ∧
  (∀ (i : Instr) (s t : State) (v : Byte), exec i s = .next t →
    (∀ a, i ≠ .storeA a) → i ≠ .add → i ≠ .sub → (∀ imm, i ≠ .addi imm) →
    ∃ t', exec i { s with regA := v } = .next t' ∧ { t' with regA := t.regA } = t) ∧
  ∀ (c : Command) (s : State) (r : CommandResult) (v : Byte), runCommand c s = .next r →
    c ≠ .execute → c ≠ .step →
    ((∀ full, c ≠ .reset full) → r.state.regA = s.regA) ∧
    ∃ r', runCommand c { s with regA := v } = .next r' ∧
      r'.response = r.response ∧ r'.output = r.output ∧ { r'.state with regA := r.state.regA } = r.state

/-- 10_state.md R22: B is written by LOAD_B and a reset and by no ALU operation; STORE_B stores it, and ADD and
SUB take it as their second operand; the other instructions, and the commands that execute none, do the same
whatever B holds, and those commands leave it. That ADDI neither reads nor writes B is the spec's decision D4
(log 10). -/
def Obligations.RegisterBHasOnlyItsReadersAndWriters : Prop :=
  (∀ (i : Instr) (s t : State), exec i s = .next t → t.regB = match i with
    | .loadB a => Memory.read s.mem a.toNat
    | _ => s.regB) ∧
  (∀ s : State, s.registerReset.regB = 0#8 ∧ s.fullReset.regB = 0#8) ∧
  (∀ (s t : State) (a : Addr), Memory.wf s.mem = true → exec (.storeB a) s = .next t →
    Memory.read t.mem a.toNat = s.regB) ∧
  (∀ s t : State, exec .add s = .next t → t.regA = s.regA + s.regB) ∧
  (∀ s t : State, exec .sub s = .next t → t.regA = s.regA - s.regB) ∧
  (∀ (i : Instr) (s t : State) (v : Byte), exec i s = .next t →
    (∀ a, i ≠ .storeB a) → i ≠ .add → i ≠ .sub →
    ∃ t', exec i { s with regB := v } = .next t' ∧ { t' with regB := t.regB } = t) ∧
  ∀ (c : Command) (s : State) (r : CommandResult) (v : Byte), runCommand c s = .next r →
    c ≠ .execute → c ≠ .step →
    ((∀ full, c ≠ .reset full) → r.state.regB = s.regB) ∧
    ∃ r', runCommand c { s with regB := v } = .next r' ∧
      r'.response = r.response ∧ r'.output = r.output ∧ { r'.state with regB := r.state.regB } = r.state

/-- 10_state.md R27: Z is written by ADD, SUB and ADDI from the result and by the LOADs as the policy allows, by
no other instruction and by no command that executes none, but for a reset, which writes 0; JUMP_ZERO jumps exactly
when it is set. The policy of the LOADs is the spec's decision D2 (log 22), what ADDI writes its decision D4
(log 10). -/
def Obligations.ZeroFlagHasOnlyItsWriters : Prop :=
  (∀ (i : Instr) (s t : State), exec i s = .next t → t.flagZ = match i with
    | .add => decide (t.regA = 0#8)
    | .sub => decide (t.regA = 0#8)
    | .addi _ => decide (t.regA = 0#8)
    | .loadA _ => if s.config.loadFlagPolicy = .none then s.flagZ else decide (t.regA = 0#8)
    | .loadB _ => if s.config.loadFlagPolicy = .both then decide (t.regB = 0#8) else s.flagZ
    | _ => s.flagZ) ∧
  (∀ (s t : State) (k : Addr), s.jumped = false → exec (.jumpZero k) s = .next t →
    t.jumped = s.flagZ) ∧
  (∀ (c : Command) (s : State) (r : CommandResult), runCommand c s = .next r →
    c ≠ .execute → c ≠ .step → (∀ full, c ≠ .reset full) → r.state.flagZ = s.flagZ) ∧
  ∀ s : State, s.registerReset.flagZ = false ∧ s.fullReset.flagZ = false

/-- 10_state.md R28: N is written by ADD, SUB and ADDI from bit 7 of the result and by the LOADs as the policy
allows, by no other instruction and by no command that executes none, but for a reset, which writes 0; JUMP_NEG
jumps exactly when it is set. The policy of the LOADs is the spec's decision D2 (log 22), what ADDI writes its
decision D4 (log 10). -/
def Obligations.NegativeFlagHasOnlyItsWriters : Prop :=
  (∀ (i : Instr) (s t : State), exec i s = .next t → t.flagN = match i with
    | .add => t.regA.msb
    | .sub => t.regA.msb
    | .addi _ => t.regA.msb
    | .loadA _ => if s.config.loadFlagPolicy = .none then s.flagN else t.regA.msb
    | .loadB _ => if s.config.loadFlagPolicy = .both then t.regB.msb else s.flagN
    | _ => s.flagN) ∧
  (∀ (s t : State) (k : Addr), s.jumped = false → exec (.jumpNeg k) s = .next t →
    t.jumped = s.flagN) ∧
  (∀ (c : Command) (s : State) (r : CommandResult), runCommand c s = .next r →
    c ≠ .execute → c ≠ .step → (∀ full, c ≠ .reset full) → r.state.flagN = s.flagN) ∧
  ∀ s : State, s.registerReset.flagN = false ∧ s.fullReset.flagN = false

/-- 10_state.md R29: after any execute O is 1 exactly when that execute was an ADD, SUB or ADDI that overflowed;
no instruction reads O; a reset writes 0. -/
def Obligations.OverflowFlagLastsOneExecute : Prop :=
  (∀ (i : Instr) (s t : State), exec i s = .next t → (t.flagO = true ↔ match i with
    | .add => s.regA.toInt + s.regB.toInt < -128 ∨ 127 < s.regA.toInt + s.regB.toInt
    | .sub => s.regA.toInt - s.regB.toInt < -128 ∨ 127 < s.regA.toInt - s.regB.toInt
    | .addi imm => 127 < s.regA.toInt + (imm.toNat : Int)
    | _ => False)) ∧
  (∀ (i : Instr) (s : State) (o : Bool), exec i { s with flagO := o } = exec i s) ∧
  ∀ s : State, s.registerReset.flagO = false ∧ s.fullReset.flagO = false

/-- 10_state.md R26: fetch puts bits 7:4 of the byte at IAR in IR.op and bits 3:0 in IR.opr; no command but
fetch, step (which fetches) and a reset writes IR; a reset clears it; no command but decode reads it: every
other answers the same and leaves the same state whatever IR held. -/
def Obligations.InstructionRegisterIsWrittenByFetchOnly : Prop :=
  (∀ s : State, s.halted = false →
    (fetch s).state.irOp.toNat = (Memory.read s.mem s.iar.toNat).toNat / 16 ∧
    (fetch s).state.irOpr.toNat = (Memory.read s.mem s.iar.toNat).toNat % 16) ∧
  (∀ (c : Command) (s : State) (r : CommandResult), runCommand c s = .next r →
    c ≠ .fetch → c ≠ .step → (∀ full, c ≠ .reset full) →
    r.state.irOp = s.irOp ∧ r.state.irOpr = s.irOpr) ∧
  (∀ (full : Bool) (s : State) (r : CommandResult), runCommand (.reset full) s = .next r →
    r.state.irOp = 0#4 ∧ r.state.irOpr = 0#4) ∧
  ∀ (c : Command) (s : State) (r : CommandResult) (op opr : Nibble), runCommand c s = .next r → c ≠ .decode →
    ∃ r', runCommand c { s with irOp := op, irOpr := opr } = .next r' ∧
      r'.response = r.response ∧ r'.output = r.output ∧
      { r'.state with irOp := r.state.irOp, irOpr := r.state.irOpr } = r.state

/-- 10_state.md R24: IAR is written only by a taken jump, to its target, by incrementIAR, by a reset, and by step
through these. -/
def Obligations.InstructionAddressHasOnlyItsWriters : Prop :=
  ∀ (c : Command) (s : State) (r : CommandResult), runCommand c s = .next r → r.state.iar ≠ s.iar →
    c = .incrementIAR ∨ c = .step ∨ (∃ full, c = .reset full) ∨
    (c = .execute ∧ (s.lastDecoded = some (.jump r.state.iar) ∨
      (s.flagN = true ∧ s.lastDecoded = some (.jumpNeg r.state.iar)) ∨
      (s.flagZ = true ∧ s.lastDecoded = some (.jumpZero r.state.iar))))

/-- 10_state.md R33: only the execute of HALT or UNKNOWN sets `halted`; only a reset clears it, and a reset
clears it; while it is set, fetch, decode, execute, incrementIAR and step change no state, which is the spec's
decision D6 (log 5). -/
def Obligations.HaltedIsSetByHaltAndClearedByReset : Prop :=
  (∀ (c : Command) (s : State) (r : CommandResult), runCommand c s = .next r →
    s.halted = false → r.state.halted = true →
    ∃ i, (i = .halt ∨ ∃ op, i = .unknown op) ∧
      (c = .execute ∧ s.lastDecoded = some i ∨
       c = .step ∧ decodeByte s.config (Memory.read s.mem s.iar.toNat) = i)) ∧
  (∀ (c : Command) (s : State) (r : CommandResult), runCommand c s = .next r →
    s.halted = true → r.state.halted = false → ∃ full, c = .reset full) ∧
  (∀ s : State, s.registerReset.halted = false ∧ s.fullReset.halted = false) ∧
  ∀ (c : Command) (s : State) (r : CommandResult), s.halted = true →
    c ∈ [Command.fetch, .decode, .execute, .incrementIAR, .step] → runCommand c s = .next r → r.state = s

/-- 10_state.md R34: only a taken jump sets `jumped`; incrementIAR reads it and then clears it, whatever it was;
every command but incrementIAR, and step which ends in it, does the same whatever it holds; a reset clears it. -/
def Obligations.JumpMarkerIsSetByTakenJumpsAndClearedByIncrement : Prop :=
  (∀ (c : Command) (s : State) (r : CommandResult), runCommand c s = .next r →
    s.jumped = false → r.state.jumped = true →
    c = .execute ∧ ∃ k, s.lastDecoded = some (.jump k) ∨
      (s.flagN = true ∧ s.lastDecoded = some (.jumpNeg k)) ∨
      (s.flagZ = true ∧ s.lastDecoded = some (.jumpZero k))) ∧
  (∀ s : State, s.halted = false → (incrementIAR s).state =
    { s with iar := if s.jumped then s.iar else s.iar + 1#4, jumped := false }) ∧
  (∀ (c : Command) (s : State) (r : CommandResult) (j : Bool), runCommand c s = .next r →
    c ≠ .incrementIAR → c ≠ .step →
    ∃ r', runCommand c { s with jumped := j } = .next r' ∧
      r'.response = r.response ∧ r'.output = r.output ∧
      { r'.state with jumped := r.state.jumped } = r.state) ∧
  ∀ s : State, s.registerReset.jumped = false ∧ s.fullReset.jumped = false

/-- 10_state.md R20: every cell is 0 at construction; a register reset leaves every cell and a full reset zeroes
every cell; outside of these a cell changes only through STORE_A, STORE_B, writeMemory and loadInstruction (in
their text form too), and it is the cell they name. -/
def Obligations.CellsChangeOnlyThroughStoresAndHostWrites : Prop :=
  (∀ x, Memory.read State.reset.mem x = 0#8) ∧
  (∀ (s : State) x, Memory.read s.registerReset.mem x = Memory.read s.mem x ∧
    Memory.read s.fullReset.mem x = 0#8) ∧
  ∀ (c : Command) (s : State) (r : CommandResult) (x : Nat), runCommand c s = .next r →
    Memory.read r.state.mem x ≠ Memory.read s.mem x →
    c = .reset true ∨
    (∃ a, a.toNat = x ∧ c = .execute ∧
      (s.lastDecoded = some (.storeA a) ∨ s.lastDecoded = some (.storeB a))) ∨
    (∃ a, a.toNat = x ∧ c = .step ∧
      (decodeByte s.config (Memory.read s.mem s.iar.toNat) = .storeA a ∨
       decodeByte s.config (Memory.read s.mem s.iar.toNat) = .storeB a)) ∨
    (∃ v, c = .writeMemory x v ∨ c = .loadInstruction x v) ∨
    ∃ text, c = .writeMemoryText x text ∨ c = .loadInstructionText x text

/-- 10_state.md R17, R35: no command changes the configuration. -/
def Obligations.ConfigurationNeverChanges : Prop :=
  ∀ (c : Command) (s : State) (r : CommandResult), runCommand c s = .next r → r.state.config = s.config

/-! ### Frames -/

/-- The frame of every instruction that stores nothing (40_cycle.md R77, 42_alu.md R106): every byte of memory
reads as before, and each element changes only under the instructions the spec names for it. -/
def Obligations.InstructionsThatStoreNothingKeepTheRest : Prop :=
  ∀ (i : Instr) (s t : State), exec i s = .next t → (∀ a, i ≠ .storeA a ∧ i ≠ .storeB a) →
    (∀ x, Memory.read t.mem x = Memory.read s.mem x) ∧
    t.irOp = s.irOp ∧ t.irOpr = s.irOpr ∧ t.config = s.config ∧
    ((∀ a, i ≠ .loadA a) → i ≠ .add → i ≠ .sub → (∀ imm, i ≠ .addi imm) → t.regA = s.regA) ∧
    ((∀ a, i ≠ .loadB a) → t.regB = s.regB) ∧
    ((∀ a, i ≠ .loadA a) → (∀ a, i ≠ .loadB a) → i ≠ .add → i ≠ .sub → (∀ imm, i ≠ .addi imm) →
      t.flagZ = s.flagZ ∧ t.flagN = s.flagN) ∧
    ((∀ k, i ≠ .jump k) → (∀ k, i ≠ .jumpNeg k) → (∀ k, i ≠ .jumpZero k) →
      t.iar = s.iar ∧ t.jumped = s.jumped) ∧
    (i ≠ .halt → (∀ op, i ≠ .unknown op) → t.halted = s.halted)

/-- The frame of the two stores (41_load_store.md R97, R98): outside the cell at the effective address every byte
of memory reads as before, and no register, flag but O, or control element but the consumed `last_decoded`
changes. -/
def Obligations.StoresKeepEverythingButTheirCell : Prop :=
  ∀ (i : Instr) (s t : State) (a : Addr), i = .storeA a ∨ i = .storeB a → exec i s = .next t →
    (∀ x, x ≠ (effectiveAddress a).toNat → Memory.read t.mem x = Memory.read s.mem x) ∧
    t.regA = s.regA ∧ t.regB = s.regB ∧ t.iar = s.iar ∧ t.irOp = s.irOp ∧ t.irOpr = s.irOpr ∧
    t.flagZ = s.flagZ ∧ t.flagN = s.flagN ∧ t.halted = s.halted ∧ t.jumped = s.jumped ∧
    t.config = s.config

/-! ### The instruction cycle -/

/-- 40_cycle.md R72: fetch puts the byte at IAR in IR and returns it, and changes nothing else; on a halted
engine it returns Halted, with no data, and changes nothing (the spec's decision D6, log 5); a second fetch does
the same again; after a register reset it reads cell 0. -/
def Obligations.FetchReadsTheCellAtTheInstructionAddress : Prop :=
  (∀ (s : State) (b : Byte), s.halted = false → b = Memory.read s.mem s.iar.toNat →
    fetch s = ⟨.ok, .byte b,
      { s with irOp := BitVec.ofNat 4 (b.toNat / 16), irOpr := BitVec.ofNat 4 (b.toNat % 16) }⟩) ∧
  (∀ s : State, s.halted = true → fetch s = ⟨.halted, .nothing, s⟩) ∧
  (∀ s : State, fetch (fetch s).state = fetch s) ∧
  ∀ s : State, (fetch s.registerReset).output = .byte (Memory.read s.mem 0)

/-- 40_cycle.md R73, R74: decode puts in `last_decoded` the instruction of the byte whose halves are in IR, and
returns its record with OK, an unknown opcode's too; it changes nothing else. The record of an unknown opcode
is the spec's decision D12 (log 12). -/
def Obligations.DecodeHoldsTheInstructionInTheRegister : Prop :=
  ∀ (s : State) (i : Instr), s.halted = false → i = decodeByte s.config (s.irOp ++ s.irOpr) →
    decode s = ⟨.ok, .decoded i.record, { s with lastDecoded := some i }⟩

/-- 40_cycle.md R75, R84: execute consumes the decoded instruction and leaves none, with the response
UnknownOpcode for an unknown opcode and OK for every other; with none decoded it returns NoDecodedInstruction
and changes nothing. The spec's decisions D7, D8, D13 (log 8, 9, 6). -/
def Obligations.ExecuteConsumesTheDecodedInstruction : Prop :=
  (∀ (s : State) (i : Instr), s.halted = false → s.lastDecoded = some i →
    ∃ t, exec i s = .next t ∧ t.lastDecoded = none ∧
      ∃ r, execute s = .next ⟨r, .nothing, t⟩ ∧
        (r = .unknownOpcode ↔ ∃ op, i = .unknown op) ∧ (r = .ok ↔ ∀ op, i ≠ .unknown op)) ∧
  ∀ s : State, s.halted = false → s.lastDecoded = none →
    execute s = .next ⟨.noDecodedInstruction, .nothing, s⟩

/-- 40_cycle.md R78: incrementIAR advances IAR modulo 16 unless a jump occurred, and clears the marker. The block
by a halt is the spec's decision D6 (log 5). -/
def Obligations.IncrementAdvancesModuloSixteen : Prop :=
  ∀ s : State,
    (s.halted = false → incrementIAR s = ⟨.ok, .nothing,
      { s with iar := if s.jumped then s.iar else BitVec.ofNat 4 ((s.iar.toNat + 1) % 16), jumped := false }⟩) ∧
    (s.halted = true → incrementIAR s = ⟨.halted, .nothing, s⟩)

/-- 40_cycle.md R80: the step of an engine that is not halted is `exec` of the instruction the byte at IAR
decodes to, on the state after fetch and decode, then the increment unless the instruction halted. The step is the
spec's decision D19 (log 18), the increment blocked by a halt its decision D6 (log 5). -/
def Obligations.StepExecutesTheByteAtTheInstructionAddress : Prop :=
  ∀ (s t : State) (b : Byte) (i : Instr), s.halted = false →
    b = Memory.read s.mem s.iar.toNat → i = decodeByte s.config b →
    exec i { s with irOp := opField b, irOpr := oprField b, lastDecoded := some i } = .next t →
    step s = .next (if t.halted then t
      else { t with iar := if t.jumped then t.iar else t.iar + 1#4, jumped := false })

/-- 40_cycle.md R80: one step is the four phase commands issued one after another, on every state (the spec's
decision D19, log 18; on a halted engine its decision D6, log 5). -/
def Obligations.StepIsTheFourPhases : Prop :=
  ∀ s : State, step s = runCommands [.fetch, .decode, .execute, .incrementIAR] s

/-- 40_cycle.md R78, R79, R85, 60_exceptions.md R118: where the next instruction is fetched after a step. An
older jump still marked suppresses the increment (R83). The halted case rests on D6 (log 5). -/
def Obligations.StepLeadsToTheNextInstructionAddress : Prop :=
  ∀ (s t : State) (next : Addr), s.halted = false → step s = .next t →
    next = (if s.jumped then s.iar else s.iar + 1#4) →
    (t.iar = match decodeByte s.config (Memory.read s.mem s.iar.toNat) with
      | .jump k => k
      | .jumpNeg k => if s.flagN then k else next
      | .jumpZero k => if s.flagZ then k else next
      | .halt => s.iar
      | .unknown _ => s.iar
      | _ => next) ∧
    (t.halted = false → t.jumped = false)

/-- 40_cycle.md R82: on a halted engine fetch, decode, execute, incrementIAR and step return Halted and change
nothing, and the machine's step stays where it is (the spec's decision D6, log 5). -/
def Obligations.HaltedEngineRejectsEveryCycleCommand : Prop :=
  ∀ s : State, s.halted = true →
    (∀ c ∈ [Command.fetch, .decode, .execute, .incrementIAR, .step],
      runCommand c s = .next ⟨.halted, .nothing, s⟩) ∧
    step s = .next s

/-- 00_scope.md R12, 20_memory.md R46, 60_exceptions.md R117: every command is answered, and the machine has a
step, in every state: nothing faults and nothing is refused. -/
def Obligations.EveryCommandIsAnswered : Prop :=
  (∀ (c : Command) (s : State), ∃ r, runCommand c s = .next r) ∧ ∀ s : State, ∃ t, step s = .next t

/-- 60_exceptions.md R116: an error response other than UnknownOpcode changes no state and carries no value in
its place; UnknownOpcode is a halt. -/
def Obligations.ErrorResponsesChangeNoState : Prop :=
  ∀ (c : Command) (s : State) (r : CommandResult), runCommand c s = .next r →
    (r.response ≠ .ok → r.output = .nothing) ∧
    (r.response ≠ .ok → r.response ≠ .unknownOpcode → r.state = s) ∧
    (r.response = .unknownOpcode → s.halted = false ∧ r.state.halted = true)

/-- 10_state.md R38, 40_cycle.md R75, R80: what a step does depends on nothing left in IR, in `last_decoded` or
in O: two engines that differ only there step to the same state. -/
def Obligations.StepIgnoresStaleInstructionAndOverflow : Prop :=
  ∀ (s : State) (op opr : Nibble) (d : Option Instr) (o : Bool), s.halted = false →
    step { s with irOp := op, irOpr := opr, lastDecoded := d, flagO := o } = step s

/-- 40_cycle.md R81: a run of `m + n` steps is a run of `n` after a run of `m`; a run that has ended stays where
it is; and a run is the step command issued again and again (the spec's decisions D19, D20, log 18; that a step
leaves a halted engine as it is, D6, log 5). -/
def Obligations.RunIsRepeatedStepUntilHalted : Prop :=
  ∀ (m n : Nat) (s : State),
    run m s = runCommands (List.replicate m .step) s ∧
    ∃ t, run m s = .next t ∧ run (m + n) s = run n t ∧ (t.halted = true → run (m + n) s = .next t)

/-! ### Reset -/

/-- 70_reset_and_hazards.md R131: the register reset, allowed in every state, clears every register, flag and
marker, leaves the memory, and answers OK; only a reset leads out of the halt. -/
def Obligations.RegisterResetClearsAllButMemory : Prop :=
  (∀ (c : Command) (s : State) (r : CommandResult), runCommand c s = .next r →
    s.halted = true → r.state.halted = false → ∃ full, c = .reset full) ∧
  ∀ s : State, runCommand (.reset false) s = .next ⟨.ok, .nothing,
    { regA := 0#8, regB := 0#8, iar := 0#4, irOp := 0#4, irOpr := 0#4, flagZ := false, flagN := false,
      flagO := false, halted := false, lastDecoded := none, jumped := false, mem := s.mem, config := s.config }⟩

/-- 70_reset_and_hazards.md R132: the full reset, allowed in every state, is the register reset and then every
cell 0: on a canonical memory, the sixteen writes of 0. -/
def Obligations.FullResetZeroesTheMemoryToo : Prop :=
  ∀ s : State, ∃ t, runCommand (.reset true) s = .next ⟨.ok, .nothing, t⟩ ∧
    t = { s.registerReset with mem := t.mem } ∧ (∀ x, Memory.read t.mem x = 0#8) ∧
    (Memory.wf s.mem = true →
      t = (List.range 16).foldl (fun u a => u.memWrite (BitVec.ofNat 4 a) 0#8) s.registerReset)

/-- 70_reset_and_hazards.md R134, 10_state.md R39: the power-on state holds 0, false or absent in every element,
and is the state a full reset leaves, whatever was there, for a machine of the same configuration. The register
values at power-on are the spec's decision D9 (log 4). -/
def Obligations.PowerOnIsWhatAFullResetLeaves : Prop :=
  (State.reset.regA = 0#8 ∧ State.reset.regB = 0#8 ∧ State.reset.iar = 0#4 ∧ State.reset.irOp = 0#4 ∧
    State.reset.irOpr = 0#4 ∧ State.reset.flagZ = false ∧ State.reset.flagN = false ∧
    State.reset.flagO = false ∧ State.reset.halted = false ∧ State.reset.lastDecoded = none ∧
    State.reset.jumped = false ∧ ∀ x, Memory.read State.reset.mem x = 0#8) ∧
  ∀ s : State, runCommand (.reset true) s = .next ⟨.ok, .nothing, { State.reset with config := s.config }⟩

/-! ### The host's memory accessors -/

/-- 20_memory.md R42, R43: readMemory returns the cell and changes nothing; both accessors answer InvalidAddress
outside 0 to 15, and writeMemory InvalidOperand for a value outside 0 to 255 at a good address, with no data and
no change, halted or not. The spec's decisions D11, D14, D23 (log 13). -/
def Obligations.AccessorsCheckAddressThenValue : Prop :=
  ∀ (s : State) (a v : Int),
    (0 ≤ a → a ≤ 15 → readMemory a s = ⟨.ok, .byte (Memory.read s.mem a.toNat), s⟩) ∧
    (a < 0 ∨ 15 < a → readMemory a s = ⟨.invalidAddress, .nothing, s⟩ ∧
      writeMemory a v s = ⟨.invalidAddress, .nothing, s⟩) ∧
    (0 ≤ a → a ≤ 15 → v < 0 ∨ 255 < v → writeMemory a v s = ⟨.invalidOperand, .nothing, s⟩)

/-- 20_memory.md R43, R45: a write of a good value at a good address is read back, and changes that cell alone
and no register, flag or control element. The domain of the arguments is D11 (log 13). -/
def Obligations.HostReadReturnsTheHostWrite : Prop :=
  ∀ (s : State) (a v : Int), Memory.wf s.mem = true → 0 ≤ a → a ≤ 15 → 0 ≤ v → v ≤ 255 →
    ∃ t, writeMemory a v s = ⟨.ok, .nothing, t⟩ ∧
      readMemory a t = ⟨.ok, .byte (BitVec.ofInt 8 v), t⟩ ∧
      t = { s with mem := t.mem } ∧ ∀ x, x ≠ a.toNat → Memory.read t.mem x = Memory.read s.mem x

/-- 20_memory.md R44: loadInstruction is writeMemory, same checks and errors, and on success it echoes the
mnemonic the byte decodes to. -/
def Obligations.LoadInstructionWritesAndEchoes : Prop :=
  ∀ (s : State) (a v : Int),
    (loadInstruction a v s).response = (writeMemory a v s).response ∧
    (loadInstruction a v s).state = (writeMemory a v s).state ∧
    ((loadInstruction a v s).response = .ok →
      (loadInstruction a v s).output = .echo (decodeByte s.config (BitVec.ofInt 8 v)).mnemonic) ∧
    ((loadInstruction a v s).response ≠ .ok → (loadInstruction a v s).output = .nothing) ∧
    ((loadInstruction a v s).response = .ok → (loadInstruction a v s).state =
      { s with mem := Memory.write s.mem a.toNat (BitVec.ofInt 8 v) }) ∧
    ((loadInstruction a v s).response ≠ .ok → (loadInstruction a v s).state = s)

/-- 20_memory.md R48: the text form is well formed exactly when it is the eight digits of a byte, bit 7 first;
then the write is the write of that byte, and else it is an InvalidOperand at a good address. The digit order is
the spec's decision D10 (log 14). -/
def Obligations.TextFormIsTheEightDigitsOfAByte : Prop :=
  (∀ (text : List Char) (v : Nat), parseCell text = some v ↔ ∃ b : Byte, v = b.toNat ∧
    text = [7, 6, 5, 4, 3, 2, 1, 0].map fun k => if b.getLsbD k then '1' else '0') ∧
  ∀ (s : State) (a : Int) (text : List Char),
    (∀ v, parseCell text = some v → writeMemoryText a text s = writeMemory a v s ∧
      loadInstructionText a text s = loadInstruction a v s) ∧
    (parseCell text = none → 0 ≤ a → a ≤ 15 →
      writeMemoryText a text s = ⟨.invalidOperand, .nothing, s⟩ ∧
      loadInstructionText a text s = ⟨.invalidOperand, .nothing, s⟩)

/-! ### Memory ordering -/

/-- 20_memory.md R54: after any sequence of host writes a cell reads as the latest write to it, or as before if
there was none. -/
def Obligations.ReadReturnsTheLatestWrite : Prop :=
  ∀ (s : State) (ws : List (Addr × Byte)), Memory.wf s.mem = true →
    ∃ t, runCommands (ws.map fun w => .writeMemory w.1.toNat w.2.toNat) s = .next t ∧
      ∀ a : Addr, t.memRead a =
        match ws.reverse.find? fun w => w.1 == a with
        | some w => w.2
        | none => s.memRead a

/-- 20_memory.md R57: a STORE_A or STORE_B into the next cell is fetched and decoded by the very next cycle: the
fetch returns the byte stored, `v`, which is A or B. -/
def Obligations.StoreIntoTheNextCellIsFetchedNext : Prop :=
  ∀ (s t : State) (v : Byte), Memory.wf s.mem = true → s.halted = false → s.jumped = false →
    (decodeByte s.config (Memory.read s.mem s.iar.toNat) = .storeA (s.iar + 1#4) ∧ v = s.regA ∨
     decodeByte s.config (Memory.read s.mem s.iar.toNat) = .storeB (s.iar + 1#4) ∧ v = s.regB) →
    step s = .next t →
    t.iar = s.iar + 1#4 ∧ (fetch t).output = .byte v ∧
    (decode (fetch t).state).state.lastDecoded = some (decodeByte s.config v)

/-- 20_memory.md R47, R57: a host write to the cell of an instruction already fetched changes the cell and not
the instruction that is decoded from IR. -/
def Obligations.HostWriteAfterFetchLeavesTheFetchedInstruction : Prop :=
  ∀ (s : State) (v : Byte), Memory.wf s.mem = true → s.halted = false →
    ∃ t, runCommands [.fetch, .writeMemory s.iar.toNat v.toNat, .decode] s = .next t ∧
      t.lastDecoded = some (decodeByte s.config (Memory.read s.mem s.iar.toNat)) ∧
      Memory.read t.mem s.iar.toNat = v

/-! ### Invariants -/

/-- The invariant holds at power-on. -/
def Obligations.PowerOnMeetsTheInvariant : Prop := Safety.Inv State.reset

/-- 10_state.md R18, R32: every step keeps the memory canonical and the decoded instruction one that the machine
can decode, from every state that meets this. -/
def Obligations.EveryStepKeepsTheInvariant : Prop :=
  ∀ s t : State, Safety.Inv s → step s = .next t → Safety.Inv t

/-- 10_state.md R18, R32: every command of the host keeps it, in any order of commands (40_cycle.md R83). -/
def Obligations.EveryCommandKeepsTheInvariant : Prop :=
  ∀ (c : Command) (s : State) (r : CommandResult), Safety.Inv s → runCommand c s = .next r → Safety.Inv r.state

/-- 10_state.md R18: in canonical form, memories whose sixteen cells read the same are the same memory, so the
model's state holds the sixteen cells and nothing more (log 16). -/
def Obligations.CanonicalMemoryIsItsSixteenCells : Prop :=
  ∀ m m' : Memory, Memory.wf m = true → Memory.wf m' = true →
    (∀ a : Addr, Memory.read m a.toNat = Memory.read m' a.toNat) → m = m'
end

