-- ==== Sys2Proof/Laws/Memory.lean ====
section
/-! SUPPORT. The laws of the memory: a read after a write, and the canonical form kept by every write. -/

namespace Sys2Proof.Machine.Memory

variable {m : Memory} {lo a b : Nat} {v : Byte}

@[simp] theorem read_nil (a : Nat) : read [] a = 0#8 := rfl

/-- An entry of a canonical memory, and the canonical rest above it. -/
theorem wfFrom_cons (k : Nat) (w : Byte) (rest : Memory) :
    wfFrom lo ((k, w) :: rest) = true ↔
      lo ≤ k ∧ k < 16 ∧ w ≠ 0#8 ∧ wfFrom (k + 1) rest = true := by
  simp [wfFrom, and_assoc]

/-- Entries above `lo` are above any smaller bound. -/
theorem wfFrom_mono {hi : Nat} (hle : lo ≤ hi) (h : wfFrom hi m = true) : wfFrom lo m = true := by
  cases m with
  | nil => rfl
  | cons c rest =>
    obtain ⟨k, w⟩ := c
    rw [wfFrom_cons] at h ⊢
    exact ⟨hle.trans h.1, h.2⟩

/-- Below every entry a memory reads as 0. -/
theorem read_below (h : wfFrom lo m = true) (ha : a < lo) : read m a = 0#8 := by
  induction m generalizing lo with
  | nil => rfl
  | cons c rest ih =>
    obtain ⟨k, w⟩ := c
    obtain ⟨hk, -, -, hrest⟩ := (wfFrom_cons k w rest).1 h
    have hne : k ≠ a := by omega
    simp only [read, if_neg hne]
    exact ih hrest (by omega)

/-- A read of another address is not touched by a write, in canonical form or not. -/
theorem read_write_other (m : Memory) (v : Byte) (h : b ≠ a) : read (write m a v) b = read m b := by
  induction m with
  | nil =>
    by_cases hv : v = 0#8
    · simp [write, hv]
    · simp [write, hv, read, h.symm]
  | cons c rest ih =>
    obtain ⟨k, w⟩ := c
    simp only [write]
    split_ifs with h1 h2 h3 h4
    · rfl
    · simp [read, h.symm]
    · simp [read, ← h3, h.symm]
    · simp [read, ← h3, h.symm]
    · simp only [read, ih]

/-- A read of the written address gives the byte written. -/
theorem read_write_same (v : Byte) (h : wfFrom lo m = true) : read (write m a v) a = v := by
  induction m generalizing lo with
  | nil =>
    by_cases hv : v = 0#8
    · simp [write, hv]
    · simp [write, hv, read]
  | cons c rest ih =>
    obtain ⟨k, w⟩ := c
    obtain ⟨-, -, -, hrest⟩ := (wfFrom_cons k w rest).1 h
    simp only [write]
    split_ifs with h1 h2 h3 h4
    · have hne : k ≠ a := by omega
      simp only [read, if_neg hne, h2]
      exact read_below hrest (by omega)
    · simp [read]
    · rw [h4]
      exact read_below hrest (by omega)
    · simp [read]
    · have hne : k ≠ a := by omega
      simp only [read, if_neg hne]
      exact ih hrest

/-- A write keeps the canonical form above any bound the address meets. -/
theorem wfFrom_write (v : Byte) (ha : a < 16) (hlo : lo ≤ a) (h : wfFrom lo m = true) :
    wfFrom lo (write m a v) = true := by
  induction m generalizing lo with
  | nil =>
    by_cases hv : v = 0#8
    · simp [write, hv, wfFrom]
    · simp [write, hv, wfFrom, ha, hlo]
  | cons c rest ih =>
    obtain ⟨k, w⟩ := c
    have h' := (wfFrom_cons k w rest).1 h
    simp only [write]
    split_ifs with h1 h2 h3 h4
    · exact h
    · rw [wfFrom_cons]
      exact ⟨hlo, ha, h2, (wfFrom_cons k w rest).2 ⟨h1, h'.2⟩⟩
    · exact wfFrom_mono (by omega) h'.2.2.2
    · rw [wfFrom_cons]
      exact ⟨hlo, ha, h4, by simpa [h3] using h'.2.2.2⟩
    · rw [wfFrom_cons]
      exact ⟨h'.1, h'.2.1, h'.2.2.1, ih (by omega) h'.2.2.2⟩

/-- Every write to a cell keeps the canonical form. -/
theorem wf_write (a : Addr) (v : Byte) (h : wf m = true) : wf (write m a.toNat v) = true :=
  wfFrom_write v a.isLt (Nat.zero_le _) h

/-- The empty memory is canonical. -/
@[simp] theorem wf_nil : wf [] = true := rfl

end Sys2Proof.Machine.Memory

namespace Sys2Proof.Machine.State

/-- `MemRead` after `MemWrite` to the same cell. -/
theorem memRead_memWrite_same (s : State) (a : Addr) (v : Byte) (h : Memory.wf s.mem = true) :
    (s.memWrite a v).memRead a = v :=
  Memory.read_write_same v h

/-- `MemRead` after `MemWrite` to another cell. -/
theorem memRead_memWrite_other (s : State) {a b : Addr} (v : Byte) (h : b ≠ a) :
    (s.memWrite a v).memRead b = s.memRead b :=
  Memory.read_write_other s.mem v fun he => h (BitVec.eq_of_toNat_eq he)

end Sys2Proof.Machine.State
end

