-- ==== Sys2Proof/Laws/State.lean ====
section
/-! SUPPORT. One lemma per field per update of the state, each by rfl, so that no proof unfolds a record update. -/

namespace Sys2Proof.Machine.State

variable (s : State)

/-! ### memWrite -/

@[simp] theorem memWrite_regA (a : Addr) (v : Byte) : (s.memWrite a v).regA = s.regA := rfl
@[simp] theorem memWrite_regB (a : Addr) (v : Byte) : (s.memWrite a v).regB = s.regB := rfl
@[simp] theorem memWrite_iar (a : Addr) (v : Byte) : (s.memWrite a v).iar = s.iar := rfl
@[simp] theorem memWrite_irOp (a : Addr) (v : Byte) : (s.memWrite a v).irOp = s.irOp := rfl
@[simp] theorem memWrite_irOpr (a : Addr) (v : Byte) : (s.memWrite a v).irOpr = s.irOpr := rfl
@[simp] theorem memWrite_flagZ (a : Addr) (v : Byte) : (s.memWrite a v).flagZ = s.flagZ := rfl
@[simp] theorem memWrite_flagN (a : Addr) (v : Byte) : (s.memWrite a v).flagN = s.flagN := rfl
@[simp] theorem memWrite_flagO (a : Addr) (v : Byte) : (s.memWrite a v).flagO = s.flagO := rfl
@[simp] theorem memWrite_halted (a : Addr) (v : Byte) : (s.memWrite a v).halted = s.halted := rfl
@[simp] theorem memWrite_lastDecoded (a : Addr) (v : Byte) : (s.memWrite a v).lastDecoded = s.lastDecoded := rfl
@[simp] theorem memWrite_jumped (a : Addr) (v : Byte) : (s.memWrite a v).jumped = s.jumped := rfl
@[simp] theorem memWrite_mem (a : Addr) (v : Byte) : (s.memWrite a v).mem = Memory.write s.mem a.toNat v := rfl
@[simp] theorem memWrite_config (a : Addr) (v : Byte) : (s.memWrite a v).config = s.config := rfl

/-! ### setIar -/

@[simp] theorem setIar_regA (t : Addr) : (s.setIar t).regA = s.regA := rfl
@[simp] theorem setIar_regB (t : Addr) : (s.setIar t).regB = s.regB := rfl
@[simp] theorem setIar_iar (t : Addr) : (s.setIar t).iar = t := rfl
@[simp] theorem setIar_irOp (t : Addr) : (s.setIar t).irOp = s.irOp := rfl
@[simp] theorem setIar_irOpr (t : Addr) : (s.setIar t).irOpr = s.irOpr := rfl
@[simp] theorem setIar_flagZ (t : Addr) : (s.setIar t).flagZ = s.flagZ := rfl
@[simp] theorem setIar_flagN (t : Addr) : (s.setIar t).flagN = s.flagN := rfl
@[simp] theorem setIar_flagO (t : Addr) : (s.setIar t).flagO = s.flagO := rfl
@[simp] theorem setIar_halted (t : Addr) : (s.setIar t).halted = s.halted := rfl
@[simp] theorem setIar_lastDecoded (t : Addr) : (s.setIar t).lastDecoded = s.lastDecoded := rfl
@[simp] theorem setIar_jumped (t : Addr) : (s.setIar t).jumped = s.jumped := rfl
@[simp] theorem setIar_mem (t : Addr) : (s.setIar t).mem = s.mem := rfl
@[simp] theorem setIar_config (t : Addr) : (s.setIar t).config = s.config := rfl

/-! ### setIr -/

@[simp] theorem setIr_regA (op opr : Nibble) : (s.setIr op opr).regA = s.regA := rfl
@[simp] theorem setIr_regB (op opr : Nibble) : (s.setIr op opr).regB = s.regB := rfl
@[simp] theorem setIr_iar (op opr : Nibble) : (s.setIr op opr).iar = s.iar := rfl
@[simp] theorem setIr_irOp (op opr : Nibble) : (s.setIr op opr).irOp = op := rfl
@[simp] theorem setIr_irOpr (op opr : Nibble) : (s.setIr op opr).irOpr = opr := rfl
@[simp] theorem setIr_flagZ (op opr : Nibble) : (s.setIr op opr).flagZ = s.flagZ := rfl
@[simp] theorem setIr_flagN (op opr : Nibble) : (s.setIr op opr).flagN = s.flagN := rfl
@[simp] theorem setIr_flagO (op opr : Nibble) : (s.setIr op opr).flagO = s.flagO := rfl
@[simp] theorem setIr_halted (op opr : Nibble) : (s.setIr op opr).halted = s.halted := rfl
@[simp] theorem setIr_lastDecoded (op opr : Nibble) : (s.setIr op opr).lastDecoded = s.lastDecoded := rfl
@[simp] theorem setIr_jumped (op opr : Nibble) : (s.setIr op opr).jumped = s.jumped := rfl
@[simp] theorem setIr_mem (op opr : Nibble) : (s.setIr op opr).mem = s.mem := rfl
@[simp] theorem setIr_config (op opr : Nibble) : (s.setIr op opr).config = s.config := rfl

/-! ### setFlagsZN -/

@[simp] theorem setFlagsZN_regA (z n : Bool) : (s.setFlagsZN z n).regA = s.regA := rfl
@[simp] theorem setFlagsZN_regB (z n : Bool) : (s.setFlagsZN z n).regB = s.regB := rfl
@[simp] theorem setFlagsZN_iar (z n : Bool) : (s.setFlagsZN z n).iar = s.iar := rfl
@[simp] theorem setFlagsZN_irOp (z n : Bool) : (s.setFlagsZN z n).irOp = s.irOp := rfl
@[simp] theorem setFlagsZN_irOpr (z n : Bool) : (s.setFlagsZN z n).irOpr = s.irOpr := rfl
@[simp] theorem setFlagsZN_flagZ (z n : Bool) : (s.setFlagsZN z n).flagZ = z := rfl
@[simp] theorem setFlagsZN_flagN (z n : Bool) : (s.setFlagsZN z n).flagN = n := rfl
@[simp] theorem setFlagsZN_flagO (z n : Bool) : (s.setFlagsZN z n).flagO = s.flagO := rfl
@[simp] theorem setFlagsZN_halted (z n : Bool) : (s.setFlagsZN z n).halted = s.halted := rfl
@[simp] theorem setFlagsZN_lastDecoded (z n : Bool) : (s.setFlagsZN z n).lastDecoded = s.lastDecoded := rfl
@[simp] theorem setFlagsZN_jumped (z n : Bool) : (s.setFlagsZN z n).jumped = s.jumped := rfl
@[simp] theorem setFlagsZN_mem (z n : Bool) : (s.setFlagsZN z n).mem = s.mem := rfl
@[simp] theorem setFlagsZN_config (z n : Bool) : (s.setFlagsZN z n).config = s.config := rfl

/-! ### setFlagO -/

@[simp] theorem setFlagO_regA (o : Bool) : (s.setFlagO o).regA = s.regA := rfl
@[simp] theorem setFlagO_regB (o : Bool) : (s.setFlagO o).regB = s.regB := rfl
@[simp] theorem setFlagO_iar (o : Bool) : (s.setFlagO o).iar = s.iar := rfl
@[simp] theorem setFlagO_irOp (o : Bool) : (s.setFlagO o).irOp = s.irOp := rfl
@[simp] theorem setFlagO_irOpr (o : Bool) : (s.setFlagO o).irOpr = s.irOpr := rfl
@[simp] theorem setFlagO_flagZ (o : Bool) : (s.setFlagO o).flagZ = s.flagZ := rfl
@[simp] theorem setFlagO_flagN (o : Bool) : (s.setFlagO o).flagN = s.flagN := rfl
@[simp] theorem setFlagO_flagO (o : Bool) : (s.setFlagO o).flagO = o := rfl
@[simp] theorem setFlagO_halted (o : Bool) : (s.setFlagO o).halted = s.halted := rfl
@[simp] theorem setFlagO_lastDecoded (o : Bool) : (s.setFlagO o).lastDecoded = s.lastDecoded := rfl
@[simp] theorem setFlagO_jumped (o : Bool) : (s.setFlagO o).jumped = s.jumped := rfl
@[simp] theorem setFlagO_mem (o : Bool) : (s.setFlagO o).mem = s.mem := rfl
@[simp] theorem setFlagO_config (o : Bool) : (s.setFlagO o).config = s.config := rfl

/-! ### setHalted -/

@[simp] theorem setHalted_regA (h : Bool) : (s.setHalted h).regA = s.regA := rfl
@[simp] theorem setHalted_regB (h : Bool) : (s.setHalted h).regB = s.regB := rfl
@[simp] theorem setHalted_iar (h : Bool) : (s.setHalted h).iar = s.iar := rfl
@[simp] theorem setHalted_irOp (h : Bool) : (s.setHalted h).irOp = s.irOp := rfl
@[simp] theorem setHalted_irOpr (h : Bool) : (s.setHalted h).irOpr = s.irOpr := rfl
@[simp] theorem setHalted_flagZ (h : Bool) : (s.setHalted h).flagZ = s.flagZ := rfl
@[simp] theorem setHalted_flagN (h : Bool) : (s.setHalted h).flagN = s.flagN := rfl
@[simp] theorem setHalted_flagO (h : Bool) : (s.setHalted h).flagO = s.flagO := rfl
@[simp] theorem setHalted_halted (h : Bool) : (s.setHalted h).halted = h := rfl
@[simp] theorem setHalted_lastDecoded (h : Bool) : (s.setHalted h).lastDecoded = s.lastDecoded := rfl
@[simp] theorem setHalted_jumped (h : Bool) : (s.setHalted h).jumped = s.jumped := rfl
@[simp] theorem setHalted_mem (h : Bool) : (s.setHalted h).mem = s.mem := rfl
@[simp] theorem setHalted_config (h : Bool) : (s.setHalted h).config = s.config := rfl

/-! ### setLastDecoded -/

@[simp] theorem setLastDecoded_regA (d : Option Instr) : (s.setLastDecoded d).regA = s.regA := rfl
@[simp] theorem setLastDecoded_regB (d : Option Instr) : (s.setLastDecoded d).regB = s.regB := rfl
@[simp] theorem setLastDecoded_iar (d : Option Instr) : (s.setLastDecoded d).iar = s.iar := rfl
@[simp] theorem setLastDecoded_irOp (d : Option Instr) : (s.setLastDecoded d).irOp = s.irOp := rfl
@[simp] theorem setLastDecoded_irOpr (d : Option Instr) : (s.setLastDecoded d).irOpr = s.irOpr := rfl
@[simp] theorem setLastDecoded_flagZ (d : Option Instr) : (s.setLastDecoded d).flagZ = s.flagZ := rfl
@[simp] theorem setLastDecoded_flagN (d : Option Instr) : (s.setLastDecoded d).flagN = s.flagN := rfl
@[simp] theorem setLastDecoded_flagO (d : Option Instr) : (s.setLastDecoded d).flagO = s.flagO := rfl
@[simp] theorem setLastDecoded_halted (d : Option Instr) : (s.setLastDecoded d).halted = s.halted := rfl
@[simp] theorem setLastDecoded_lastDecoded (d : Option Instr) : (s.setLastDecoded d).lastDecoded = d := rfl
@[simp] theorem setLastDecoded_jumped (d : Option Instr) : (s.setLastDecoded d).jumped = s.jumped := rfl
@[simp] theorem setLastDecoded_mem (d : Option Instr) : (s.setLastDecoded d).mem = s.mem := rfl
@[simp] theorem setLastDecoded_config (d : Option Instr) : (s.setLastDecoded d).config = s.config := rfl

/-! ### setJumped -/

@[simp] theorem setJumped_regA (j : Bool) : (s.setJumped j).regA = s.regA := rfl
@[simp] theorem setJumped_regB (j : Bool) : (s.setJumped j).regB = s.regB := rfl
@[simp] theorem setJumped_iar (j : Bool) : (s.setJumped j).iar = s.iar := rfl
@[simp] theorem setJumped_irOp (j : Bool) : (s.setJumped j).irOp = s.irOp := rfl
@[simp] theorem setJumped_irOpr (j : Bool) : (s.setJumped j).irOpr = s.irOpr := rfl
@[simp] theorem setJumped_flagZ (j : Bool) : (s.setJumped j).flagZ = s.flagZ := rfl
@[simp] theorem setJumped_flagN (j : Bool) : (s.setJumped j).flagN = s.flagN := rfl
@[simp] theorem setJumped_flagO (j : Bool) : (s.setJumped j).flagO = s.flagO := rfl
@[simp] theorem setJumped_halted (j : Bool) : (s.setJumped j).halted = s.halted := rfl
@[simp] theorem setJumped_lastDecoded (j : Bool) : (s.setJumped j).lastDecoded = s.lastDecoded := rfl
@[simp] theorem setJumped_jumped (j : Bool) : (s.setJumped j).jumped = j := rfl
@[simp] theorem setJumped_mem (j : Bool) : (s.setJumped j).mem = s.mem := rfl
@[simp] theorem setJumped_config (j : Bool) : (s.setJumped j).config = s.config := rfl

/-! ### writeReg_a -/

@[simp] theorem writeReg_a_regA (v : Byte) : (s.writeReg .a v).regA = v := rfl
@[simp] theorem writeReg_a_regB (v : Byte) : (s.writeReg .a v).regB = s.regB := rfl
@[simp] theorem writeReg_a_iar (v : Byte) : (s.writeReg .a v).iar = s.iar := rfl
@[simp] theorem writeReg_a_irOp (v : Byte) : (s.writeReg .a v).irOp = s.irOp := rfl
@[simp] theorem writeReg_a_irOpr (v : Byte) : (s.writeReg .a v).irOpr = s.irOpr := rfl
@[simp] theorem writeReg_a_flagZ (v : Byte) : (s.writeReg .a v).flagZ = s.flagZ := rfl
@[simp] theorem writeReg_a_flagN (v : Byte) : (s.writeReg .a v).flagN = s.flagN := rfl
@[simp] theorem writeReg_a_flagO (v : Byte) : (s.writeReg .a v).flagO = s.flagO := rfl
@[simp] theorem writeReg_a_halted (v : Byte) : (s.writeReg .a v).halted = s.halted := rfl
@[simp] theorem writeReg_a_lastDecoded (v : Byte) : (s.writeReg .a v).lastDecoded = s.lastDecoded := rfl
@[simp] theorem writeReg_a_jumped (v : Byte) : (s.writeReg .a v).jumped = s.jumped := rfl
@[simp] theorem writeReg_a_mem (v : Byte) : (s.writeReg .a v).mem = s.mem := rfl
@[simp] theorem writeReg_a_config (v : Byte) : (s.writeReg .a v).config = s.config := rfl

/-! ### writeReg_b -/

@[simp] theorem writeReg_b_regA (v : Byte) : (s.writeReg .b v).regA = s.regA := rfl
@[simp] theorem writeReg_b_regB (v : Byte) : (s.writeReg .b v).regB = v := rfl
@[simp] theorem writeReg_b_iar (v : Byte) : (s.writeReg .b v).iar = s.iar := rfl
@[simp] theorem writeReg_b_irOp (v : Byte) : (s.writeReg .b v).irOp = s.irOp := rfl
@[simp] theorem writeReg_b_irOpr (v : Byte) : (s.writeReg .b v).irOpr = s.irOpr := rfl
@[simp] theorem writeReg_b_flagZ (v : Byte) : (s.writeReg .b v).flagZ = s.flagZ := rfl
@[simp] theorem writeReg_b_flagN (v : Byte) : (s.writeReg .b v).flagN = s.flagN := rfl
@[simp] theorem writeReg_b_flagO (v : Byte) : (s.writeReg .b v).flagO = s.flagO := rfl
@[simp] theorem writeReg_b_halted (v : Byte) : (s.writeReg .b v).halted = s.halted := rfl
@[simp] theorem writeReg_b_lastDecoded (v : Byte) : (s.writeReg .b v).lastDecoded = s.lastDecoded := rfl
@[simp] theorem writeReg_b_jumped (v : Byte) : (s.writeReg .b v).jumped = s.jumped := rfl
@[simp] theorem writeReg_b_mem (v : Byte) : (s.writeReg .b v).mem = s.mem := rfl
@[simp] theorem writeReg_b_config (v : Byte) : (s.writeReg .b v).config = s.config := rfl

/-! ### enterExecute -/

@[simp] theorem enterExecute_regA : (s.enterExecute).regA = s.regA := rfl
@[simp] theorem enterExecute_regB : (s.enterExecute).regB = s.regB := rfl
@[simp] theorem enterExecute_iar : (s.enterExecute).iar = s.iar := rfl
@[simp] theorem enterExecute_irOp : (s.enterExecute).irOp = s.irOp := rfl
@[simp] theorem enterExecute_irOpr : (s.enterExecute).irOpr = s.irOpr := rfl
@[simp] theorem enterExecute_flagZ : (s.enterExecute).flagZ = s.flagZ := rfl
@[simp] theorem enterExecute_flagN : (s.enterExecute).flagN = s.flagN := rfl
@[simp] theorem enterExecute_flagO : (s.enterExecute).flagO = false := rfl
@[simp] theorem enterExecute_halted : (s.enterExecute).halted = s.halted := rfl
@[simp] theorem enterExecute_lastDecoded : (s.enterExecute).lastDecoded = none := rfl
@[simp] theorem enterExecute_jumped : (s.enterExecute).jumped = s.jumped := rfl
@[simp] theorem enterExecute_mem : (s.enterExecute).mem = s.mem := rfl
@[simp] theorem enterExecute_config : (s.enterExecute).config = s.config := rfl

/-! ### halt -/

@[simp] theorem halt_regA : (s.halt).regA = s.regA := rfl
@[simp] theorem halt_regB : (s.halt).regB = s.regB := rfl
@[simp] theorem halt_iar : (s.halt).iar = s.iar := rfl
@[simp] theorem halt_irOp : (s.halt).irOp = s.irOp := rfl
@[simp] theorem halt_irOpr : (s.halt).irOpr = s.irOpr := rfl
@[simp] theorem halt_flagZ : (s.halt).flagZ = s.flagZ := rfl
@[simp] theorem halt_flagN : (s.halt).flagN = s.flagN := rfl
@[simp] theorem halt_flagO : (s.halt).flagO = s.flagO := rfl
@[simp] theorem halt_halted : (s.halt).halted = true := rfl
@[simp] theorem halt_lastDecoded : (s.halt).lastDecoded = s.lastDecoded := rfl
@[simp] theorem halt_jumped : (s.halt).jumped = s.jumped := rfl
@[simp] theorem halt_mem : (s.halt).mem = s.mem := rfl
@[simp] theorem halt_config : (s.halt).config = s.config := rfl

/-! ### takeJump -/

@[simp] theorem takeJump_regA (t : Addr) : (s.takeJump t).regA = s.regA := rfl
@[simp] theorem takeJump_regB (t : Addr) : (s.takeJump t).regB = s.regB := rfl
@[simp] theorem takeJump_iar (t : Addr) : (s.takeJump t).iar = t := rfl
@[simp] theorem takeJump_irOp (t : Addr) : (s.takeJump t).irOp = s.irOp := rfl
@[simp] theorem takeJump_irOpr (t : Addr) : (s.takeJump t).irOpr = s.irOpr := rfl
@[simp] theorem takeJump_flagZ (t : Addr) : (s.takeJump t).flagZ = s.flagZ := rfl
@[simp] theorem takeJump_flagN (t : Addr) : (s.takeJump t).flagN = s.flagN := rfl
@[simp] theorem takeJump_flagO (t : Addr) : (s.takeJump t).flagO = s.flagO := rfl
@[simp] theorem takeJump_halted (t : Addr) : (s.takeJump t).halted = s.halted := rfl
@[simp] theorem takeJump_lastDecoded (t : Addr) : (s.takeJump t).lastDecoded = s.lastDecoded := rfl
@[simp] theorem takeJump_jumped (t : Addr) : (s.takeJump t).jumped = true := rfl
@[simp] theorem takeJump_mem (t : Addr) : (s.takeJump t).mem = s.mem := rfl
@[simp] theorem takeJump_config (t : Addr) : (s.takeJump t).config = s.config := rfl

/-! ### setZN -/

@[simp] theorem setZN_regA (v : Byte) : (s.setZN v).regA = s.regA := rfl
@[simp] theorem setZN_regB (v : Byte) : (s.setZN v).regB = s.regB := rfl
@[simp] theorem setZN_iar (v : Byte) : (s.setZN v).iar = s.iar := rfl
@[simp] theorem setZN_irOp (v : Byte) : (s.setZN v).irOp = s.irOp := rfl
@[simp] theorem setZN_irOpr (v : Byte) : (s.setZN v).irOpr = s.irOpr := rfl
@[simp] theorem setZN_flagZ (v : Byte) : (s.setZN v).flagZ = (v == 0#8) := rfl
@[simp] theorem setZN_flagN (v : Byte) : (s.setZN v).flagN = v.getLsbD 7 := rfl
@[simp] theorem setZN_flagO (v : Byte) : (s.setZN v).flagO = s.flagO := rfl
@[simp] theorem setZN_halted (v : Byte) : (s.setZN v).halted = s.halted := rfl
@[simp] theorem setZN_lastDecoded (v : Byte) : (s.setZN v).lastDecoded = s.lastDecoded := rfl
@[simp] theorem setZN_jumped (v : Byte) : (s.setZN v).jumped = s.jumped := rfl
@[simp] theorem setZN_mem (v : Byte) : (s.setZN v).mem = s.mem := rfl
@[simp] theorem setZN_config (v : Byte) : (s.setZN v).config = s.config := rfl

/-! ### writeAluResult -/

@[simp] theorem writeAluResult_regA (r : Byte) (o : Bool) : (s.writeAluResult r o).regA = r := rfl
@[simp] theorem writeAluResult_regB (r : Byte) (o : Bool) : (s.writeAluResult r o).regB = s.regB := rfl
@[simp] theorem writeAluResult_iar (r : Byte) (o : Bool) : (s.writeAluResult r o).iar = s.iar := rfl
@[simp] theorem writeAluResult_irOp (r : Byte) (o : Bool) : (s.writeAluResult r o).irOp = s.irOp := rfl
@[simp] theorem writeAluResult_irOpr (r : Byte) (o : Bool) : (s.writeAluResult r o).irOpr = s.irOpr := rfl
@[simp] theorem writeAluResult_flagZ (r : Byte) (o : Bool) : (s.writeAluResult r o).flagZ = (r == 0#8) := rfl
@[simp] theorem writeAluResult_flagN (r : Byte) (o : Bool) : (s.writeAluResult r o).flagN = r.getLsbD 7 := rfl
@[simp] theorem writeAluResult_flagO (r : Byte) (o : Bool) : (s.writeAluResult r o).flagO = o := rfl
@[simp] theorem writeAluResult_halted (r : Byte) (o : Bool) : (s.writeAluResult r o).halted = s.halted := rfl
@[simp] theorem writeAluResult_lastDecoded (r : Byte) (o : Bool) : (s.writeAluResult r o).lastDecoded = s.lastDecoded := rfl
@[simp] theorem writeAluResult_jumped (r : Byte) (o : Bool) : (s.writeAluResult r o).jumped = s.jumped := rfl
@[simp] theorem writeAluResult_mem (r : Byte) (o : Bool) : (s.writeAluResult r o).mem = s.mem := rfl
@[simp] theorem writeAluResult_config (r : Byte) (o : Bool) : (s.writeAluResult r o).config = s.config := rfl

/-! ### The registers -/

@[simp] theorem readReg_a : s.readReg .a = s.regA := rfl
@[simp] theorem readReg_b : s.readReg .b = s.regB := rfl
@[simp] theorem regsPair_eq : s.regsPair = (s.regA, s.regB) := rfl

/-! ### The two resets: every field but the memory and the configuration at its reset value -/

@[simp] theorem registerReset_regA : s.registerReset.regA = 0#8 := rfl
@[simp] theorem registerReset_regB : s.registerReset.regB = 0#8 := rfl
@[simp] theorem registerReset_iar : s.registerReset.iar = 0#4 := rfl
@[simp] theorem registerReset_irOp : s.registerReset.irOp = 0#4 := rfl
@[simp] theorem registerReset_irOpr : s.registerReset.irOpr = 0#4 := rfl
@[simp] theorem registerReset_flagZ : s.registerReset.flagZ = false := rfl
@[simp] theorem registerReset_flagN : s.registerReset.flagN = false := rfl
@[simp] theorem registerReset_flagO : s.registerReset.flagO = false := rfl
@[simp] theorem registerReset_halted : s.registerReset.halted = false := rfl
@[simp] theorem registerReset_lastDecoded : s.registerReset.lastDecoded = none := rfl
@[simp] theorem registerReset_jumped : s.registerReset.jumped = false := rfl
@[simp] theorem registerReset_mem : s.registerReset.mem = s.mem := rfl
@[simp] theorem registerReset_config : s.registerReset.config = s.config := rfl

@[simp] theorem fullReset_regA : s.fullReset.regA = 0#8 := rfl
@[simp] theorem fullReset_regB : s.fullReset.regB = 0#8 := rfl
@[simp] theorem fullReset_iar : s.fullReset.iar = 0#4 := rfl
@[simp] theorem fullReset_irOp : s.fullReset.irOp = 0#4 := rfl
@[simp] theorem fullReset_irOpr : s.fullReset.irOpr = 0#4 := rfl
@[simp] theorem fullReset_flagZ : s.fullReset.flagZ = false := rfl
@[simp] theorem fullReset_flagN : s.fullReset.flagN = false := rfl
@[simp] theorem fullReset_flagO : s.fullReset.flagO = false := rfl
@[simp] theorem fullReset_halted : s.fullReset.halted = false := rfl
@[simp] theorem fullReset_lastDecoded : s.fullReset.lastDecoded = none := rfl
@[simp] theorem fullReset_jumped : s.fullReset.jumped = false := rfl
@[simp] theorem fullReset_mem : s.fullReset.mem = [] := rfl
@[simp] theorem fullReset_config : s.fullReset.config = s.config := rfl

end Sys2Proof.Machine.State
end

