-- ==== Sys2Proof/Laws/Exec.lean ====
section
/-! SUPPORT. What the shared operations and the meanings can do, said once: the ALU results and flags as
arithmetic, the state each instruction leaves, and what every instruction keeps. -/

namespace Sys2Proof.Machine

/-! ### Arithmetic (42_alu.md R100, R101, R103) -/

/-- The masked 9-bit sum is the sum modulo 256. -/
@[simp] theorem addResult_eq (x y : Byte) : addResult x y = x + y := by
  apply BitVec.eq_of_toNat_eq
  simp only [addResult, BitVec.extractLsb'_toNat, BitVec.toNat_add, BitVec.toNat_setWidth]
  omega

/-- The residue of the exact difference is the difference modulo 256. -/
@[simp] theorem subResult_eq (x y : Byte) : subResult x y = x - y := by
  apply BitVec.eq_of_toNat_eq
  simp only [subResult, BitVec.toNat_ofInt, BitVec.toNat_sub]
  omega

/-- Bit 7 of a byte is its sign. -/
theorem bit7_eq_msb (x : Byte) : x.getLsbD 7 = x.msb := by
  simp [BitVec.msb, BitVec.getMsbD]

/-- The sign of a byte as a comparison. -/
theorem bit7_eq_decide (x : Byte) : x.getLsbD 7 = decide (128 ≤ x.toNat) := by
  rw [bit7_eq_msb, BitVec.msb_eq_decide]

/-- The addition sign rule is the signed range test (42_alu.md R104). -/
theorem addOverflow_iff (x y : Byte) : addOverflow x y (x + y) = true ↔
    x.toInt + y.toInt < -128 ∨ 127 < x.toInt + y.toInt := by
  simp only [addOverflow, bit7_eq_decide, BitVec.toInt_eq_toNat_cond, BitVec.toNat_add, Bool.and_eq_true,
    beq_iff_eq, bne_iff_ne, ne_eq, decide_eq_decide]
  have hx := x.isLt
  have hy := y.isLt
  split <;> split <;> omega

/-- The subtraction sign rule is the signed range test (42_alu.md R104). -/
theorem subOverflow_iff (x y : Byte) : subOverflow x y (x - y) = true ↔
    x.toInt - y.toInt < -128 ∨ 127 < x.toInt - y.toInt := by
  simp only [subOverflow, bit7_eq_decide, BitVec.toInt_eq_toNat_cond, BitVec.toNat_sub, Bool.and_eq_true,
    bne_iff_ne, ne_eq, decide_eq_decide]
  have hx := x.isLt
  have hy := y.isLt
  split <;> split <;> omega

/-! ### What an instruction leaves (40_cycle.md R75) -/

/-- The state an instruction leaves, in one case per constructor: `exec` always answers it. -/
def State.after (s : State) : Instr → State
  | .nop => s.enterExecute
  | .loadA a => s.enterExecute.load .a a
  | .loadB a => s.enterExecute.load .b a
  | .storeA a => s.enterExecute.memWrite a s.regA
  | .storeB a => s.enterExecute.memWrite a s.regB
  | .add => s.enterExecute.aluAdd s.regA s.regB
  | .sub => s.enterExecute.aluSub s.regA s.regB
  | .jump t => s.enterExecute.takeJump t
  | .jumpNeg t => s.enterExecute.jumpIf s.flagN t
  | .jumpZero t => s.enterExecute.jumpIf s.flagZ t
  | .addi imm => s.enterExecute.aluAdd s.regA (immediate imm)
  | .unknown _ => s.enterExecute.halt
  | .halt => s.enterExecute.halt

/-- The inversion lemma of the dispatch: the one next state of each instruction. -/
theorem exec_eq (i : Instr) (s : State) : exec i s = .next (s.after i) := by
  cases i <;> rfl

/-- The next state of an instruction is `after`. -/
theorem exec_next_iff {i : Instr} {s t : State} : exec i s = .next t ↔ s.after i = t := by
  rw [exec_eq]; exact ⟨fun h => by injection h, fun h => by rw [h]⟩

namespace State

variable (s : State)

/-- `jumpIf` as a choice of states. -/
theorem jumpIf_eq (c : Bool) (t : Addr) : s.jumpIf c t = if c then s.takeJump t else s := rfl

/-- A load field by field. -/
theorem load_a_eq (a : Addr) : s.load .a a = { s with
    regA := s.memRead a,
    flagZ := if s.config.loadFlagPolicy = .none then s.flagZ else s.memRead a == 0#8,
    flagN := if s.config.loadFlagPolicy = .none then s.flagN else (s.memRead a).getLsbD 7 } := by
  cases h : s.config.loadFlagPolicy <;>
    simp [load, setLoadFlags, writeReg, loadWritesFlags, h, setZN, setFlagsZN]

/-- A load field by field. -/
theorem load_b_eq (a : Addr) : s.load .b a = { s with
    regB := s.memRead a,
    flagZ := if s.config.loadFlagPolicy = .both then s.memRead a == 0#8 else s.flagZ,
    flagN := if s.config.loadFlagPolicy = .both then (s.memRead a).getLsbD 7 else s.flagN } := by
  cases h : s.config.loadFlagPolicy <;>
    simp [load, setLoadFlags, writeReg, loadWritesFlags, h, setZN, setFlagsZN]

/-- An instruction never changes the configuration. -/
@[simp] theorem after_config (i : Instr) : (s.after i).config = s.config := by
  cases i <;> simp [after, load_a_eq, load_b_eq, aluAdd, aluSub, jumpIf_eq, apply_ite State.config]

/-- An instruction never changes IR. -/
@[simp] theorem after_irOp (i : Instr) : (s.after i).irOp = s.irOp := by
  cases i <;> simp [after, load_a_eq, load_b_eq, aluAdd, aluSub, jumpIf_eq, apply_ite State.irOp]

/-- An instruction never changes IR. -/
@[simp] theorem after_irOpr (i : Instr) : (s.after i).irOpr = s.irOpr := by
  cases i <;> simp [after, load_a_eq, load_b_eq, aluAdd, aluSub, jumpIf_eq, apply_ite State.irOpr]

/-- An instruction consumes the decoded instruction. -/
@[simp] theorem after_lastDecoded (i : Instr) : (s.after i).lastDecoded = none := by
  cases i <;> simp [after, load_a_eq, load_b_eq, aluAdd, aluSub, jumpIf_eq, apply_ite State.lastDecoded]

/-- An instruction writes IAR only by a taken jump. -/
theorem after_iar (i : Instr) : (s.after i).iar = match i with
    | .jump t => t
    | .jumpNeg t => if s.flagN then t else s.iar
    | .jumpZero t => if s.flagZ then t else s.iar
    | _ => s.iar := by
  cases i <;> simp [after, load_a_eq, load_b_eq, aluAdd, aluSub, jumpIf_eq, apply_ite State.iar]

/-- An instruction marks a jump only by taking it. -/
theorem after_jumped (i : Instr) : (s.after i).jumped = match i with
    | .jump _ => true
    | .jumpNeg _ => if s.flagN then true else s.jumped
    | .jumpZero _ => if s.flagZ then true else s.jumped
    | _ => s.jumped := by
  cases i <;> simp [after, load_a_eq, load_b_eq, aluAdd, aluSub, jumpIf_eq, apply_ite State.jumped]

/-- Only HALT and UNKNOWN set `halted`. -/
theorem after_halted (i : Instr) : (s.after i).halted = match i with
    | .halt => true
    | .unknown _ => true
    | _ => s.halted := by
  cases i <;> simp [after, load_a_eq, load_b_eq, aluAdd, aluSub, jumpIf_eq, apply_ite State.halted]

/-- Only the stores write memory. -/
theorem after_mem (i : Instr) : (s.after i).mem = match i with
    | .storeA a => Memory.write s.mem a.toNat s.regA
    | .storeB a => Memory.write s.mem a.toNat s.regB
    | _ => s.mem := by
  cases i <;> simp [after, load_a_eq, load_b_eq, aluAdd, aluSub, jumpIf_eq, apply_ite State.mem]

/-- An instruction keeps the memory canonical. -/
theorem after_mem_wf (i : Instr) (h : Memory.wf s.mem = true) : Memory.wf (s.after i).mem = true := by
  cases i <;>
    simp [after, load_a_eq, load_b_eq, aluAdd, aluSub, jumpIf_eq, apply_ite State.mem, Memory.wf_write, h]

end State
end Sys2Proof.Machine
end

