-- ==== Sys2Proof/Laws/PerInstr.lean ====
section
/-! SUPPORT. Facts about the instructions as syntax, one lemma per constructor (LAWS.json). -/

namespace Sys2Proof.Laws

/-- The two halves of a byte put together are the halves (30_encoding.md R59). -/
theorem opField_append (x y : Nibble) : opField (x ++ y) = x := by
  revert x y; decide

/-- The two halves of a byte put together are the halves (30_encoding.md R59). -/
theorem oprField_append (x y : Nibble) : oprField (x ++ y) = y := by
  revert x y; decide

/-- A byte is its two halves (30_encoding.md R59). -/
theorem fields_append (b : Byte) : opField b ++ oprField b = b := by
  revert b; decide

namespace EncodedFields

/-- The encoder puts the instruction's opcode in bits 7:4 and its operand, if it has one, in bits 3:0
(30_encoding.md R59, R67). -/
def Statement (i : Instr) : Prop :=
  opField (encode i) = i.opbits ∧ ∀ v, i.value = some v → oprField (encode i) = v

/-- The opcode half holds of every instruction; the operand half is the constructor's. -/
theorem of_value {i : Instr} (h : ∀ v, i.value = some v → i.operandBits = v) : Statement i :=
  ⟨opField_append _ _, fun v hv => (oprField_append _ _).trans (h v hv)⟩

theorem nop : Statement .nop := of_value nofun
theorem loadA (a : Addr) : Statement (.loadA a) := of_value fun _ h => Option.some.inj h
theorem loadB (a : Addr) : Statement (.loadB a) := of_value fun _ h => Option.some.inj h
theorem storeA (a : Addr) : Statement (.storeA a) := of_value fun _ h => Option.some.inj h
theorem storeB (a : Addr) : Statement (.storeB a) := of_value fun _ h => Option.some.inj h
theorem add : Statement .add := of_value nofun
theorem sub : Statement .sub := of_value nofun
theorem jump (t : Addr) : Statement (.jump t) := of_value fun _ h => Option.some.inj h
theorem jumpNeg (t : Addr) : Statement (.jumpNeg t) := of_value fun _ h => Option.some.inj h
theorem jumpZero (t : Addr) : Statement (.jumpZero t) := of_value fun _ h => Option.some.inj h
theorem addi (imm : Nibble) : Statement (.addi imm) := of_value fun _ h => Option.some.inj h
theorem unknown (op : Nibble) : Statement (.unknown op) := of_value nofun
theorem halt : Statement .halt := of_value nofun

end EncodedFields
end Sys2Proof.Laws
end

