-- ==== Sys2Proof/Laws/Commands.lean ====
section
/-! SUPPORT. What each command does, said once (40_cycle.md R72 to R80): the phases on a running and on a halted
engine, the instruction cycle as one state change, and the one answer of every command. -/

namespace Sys2Proof.Machine

variable {s : State}

/-! ### The decoder on a split byte -/

/-- Decoding the two halves of a byte is decoding the byte (30_encoding.md R59). -/
theorem decodeFields_fields (cfg : Config) (b : Byte) :
    decodeFields cfg (opField b) (oprField b) = decodeByte cfg b := rfl

/-- Decoding two halves is decoding the byte they make (30_encoding.md R59). -/
theorem decodeByte_append (cfg : Config) (op opr : Nibble) :
    decodeByte cfg (op ++ opr) = decodeFields cfg op opr := by
  rw [decodeByte, Laws.opField_append, Laws.oprField_append]

/-- The decoder answers only instructions of the configuration (30_encoding.md R64). -/
theorem decodeFields_wellFormed (cfg : Config) (op opr : Nibble) :
    (decodeFields cfg op opr).wellFormed cfg = true := by
  obtain ⟨policy, addi⟩ := cfg
  cases policy <;> cases addi <;> revert op opr <;> decide

/-! ### The phases -/

theorem fetch_running (h : s.halted = false) : fetch s =
    ⟨.ok, .byte (s.memRead s.iar), s.setIr (opField (s.memRead s.iar)) (oprField (s.memRead s.iar))⟩ := by
  simp [fetch, h]

theorem fetch_halted (h : s.halted = true) : fetch s = ⟨.halted, .nothing, s⟩ := by
  simp [fetch, h, State.raise]

theorem decode_running (h : s.halted = false) : decode s =
    ⟨.ok, .decoded (decodeFields s.config s.irOp s.irOpr).record,
      s.setLastDecoded (some (decodeFields s.config s.irOp s.irOpr))⟩ := by
  simp [decode, h]

theorem decode_halted (h : s.halted = true) : decode s = ⟨.halted, .nothing, s⟩ := by
  simp [decode, h, State.raise]

theorem execute_halted (h : s.halted = true) : execute s = .next ⟨.halted, .nothing, s⟩ := by
  simp [execute, h, State.raise]

theorem execute_none (h : s.halted = false) (hd : s.lastDecoded = none) :
    execute s = .next ⟨.noDecodedInstruction, .nothing, s⟩ := by
  simp [execute, h, hd, State.raise]

theorem execute_some {i : Instr} (h : s.halted = false) (hd : s.lastDecoded = some i) :
    execute s = .next ⟨executeResponse i, .nothing, s.after i⟩ := by
  simp [execute, h, hd, exec_eq]

theorem incrementIAR_running (h : s.halted = false) : incrementIAR s =
    ⟨.ok, .nothing, { s with iar := if s.jumped then s.iar else s.iar + 1#4, jumped := false }⟩ := by
  cases hj : s.jumped <;> simp [incrementIAR, h, hj, State.setJumped, State.setIar]

theorem incrementIAR_halted (h : s.halted = true) : incrementIAR s = ⟨.halted, .nothing, s⟩ := by
  simp [incrementIAR, h, State.raise]

/-! ### The instruction cycle -/

/-- The instruction the next step runs: what the byte at IAR decodes to. -/
def State.current (s : State) : Instr := decodeByte s.config (s.memRead s.iar)

/-- The state after fetch and decode. -/
def State.fetched (s : State) : State :=
  (s.setIr (opField (s.memRead s.iar)) (oprField (s.memRead s.iar))).setLastDecoded (some s.current)

theorem decode_fetch (h : s.halted = false) : (decode (fetch s).state).state = s.fetched := by
  rw [fetch_running h, decode_running (by simpa using h)]
  rfl

theorem stepCycle_halted (h : s.halted = true) : stepCycle s = .next ⟨.halted, .nothing, s⟩ := by
  simp [stepCycle, h, State.raise]

/-- One instruction cycle: fetch and decode, the instruction's own change, the increment. -/
theorem stepCycle_running (h : s.halted = false) : stepCycle s =
    .next ⟨executeResponse s.current, .nothing, (incrementIAR (s.fetched.after s.current)).state⟩ := by
  have hex : execute s.fetched = .next ⟨executeResponse s.current, .nothing, s.fetched.after s.current⟩ :=
    execute_some (by simpa [State.fetched] using h) rfl
  simp [stepCycle, h, decode_fetch h, hex]

theorem step_halted (h : s.halted = true) : step s = .next s := by
  simp [step, stepCycle_halted h]

theorem step_running (h : s.halted = false) :
    step s = .next (incrementIAR (s.fetched.after s.current)).state := by
  simp [step, stepCycle_running h]

/-- The inversion of the machine's step: it stays on a halted engine, and runs one cycle on a running one. -/
theorem step_cases {t : State} (h : step s = .next t) :
    (s.halted = true ∧ t = s) ∨
    (s.halted = false ∧ t = (incrementIAR (s.fetched.after s.current)).state) := by
  cases hh : s.halted
  · rw [step_running hh] at h; injection h with h; exact .inr ⟨rfl, h.symm⟩
  · rw [step_halted hh] at h; injection h with h; exact .inl ⟨rfl, h.symm⟩

/-! ### The increment keeps all but IAR and the marker -/

@[simp] theorem incrementIAR_mem (s : State) : (incrementIAR s).state.mem = s.mem := by
  cases h : s.halted
  · rw [incrementIAR_running h]
  · rw [incrementIAR_halted h]

@[simp] theorem incrementIAR_config (s : State) : (incrementIAR s).state.config = s.config := by
  cases h : s.halted
  · rw [incrementIAR_running h]
  · rw [incrementIAR_halted h]

@[simp] theorem incrementIAR_lastDecoded (s : State) :
    (incrementIAR s).state.lastDecoded = s.lastDecoded := by
  cases h : s.halted
  · rw [incrementIAR_running h]
  · rw [incrementIAR_halted h]

@[simp] theorem incrementIAR_halted_eq (s : State) : (incrementIAR s).state.halted = s.halted := by
  cases h : s.halted
  · rw [incrementIAR_running h]; exact h
  · rw [incrementIAR_halted h]; exact h

/-! ### The one answer of every command -/

/-- The command is a write by the host to address `a` (20_memory.md R43, R44, R48). -/
def Command.WritesTo : Command → Int → Prop
  | .writeMemory b _, a => b = a
  | .loadInstruction b _, a => b = a
  | .writeMemoryText b _, a => b = a
  | .loadInstructionText b _, a => b = a
  | _, _ => False

/-- Everything a command can answer from a state (40_cycle.md R70, 60_exceptions.md R115). -/
inductive Answer (s : State) : Command → CommandResult → Prop where
  | fetched : Answer s .fetch (Machine.fetch s)
  | decoded : Answer s .decode (Machine.decode s)
  | incremented : Answer s .incrementIAR (Machine.incrementIAR s)
  | executed (i : Instr) (running : s.halted = false) (held : s.lastDecoded = some i) :
      Answer s .execute ⟨executeResponse i, .nothing, s.after i⟩
  | noneDecoded (running : s.halted = false) (absent : s.lastDecoded = none) :
      Answer s .execute ⟨.noDecodedInstruction, .nothing, s⟩
  | stepped (running : s.halted = false) :
      Answer s .step ⟨executeResponse s.current, .nothing,
        (Machine.incrementIAR (s.fetched.after s.current)).state⟩
  | rejected {c : Command} (stopped : s.halted = true) (cycle : c = .execute ∨ c = .step) :
      Answer s c ⟨.halted, .nothing, s⟩
  | registerReset : Answer s (.reset false) ⟨.ok, .nothing, s.registerReset⟩
  | fullReset : Answer s (.reset true) ⟨.ok, .nothing, s.fullReset⟩
  | readCell {a : Int} (low : 0 ≤ a) (high : a ≤ 15) :
      Answer s (.readMemory a) ⟨.ok, .byte (s.memRead (BitVec.ofInt 4 a)), s⟩
  | readNoCell {a : Int} (outside : ¬ (0 ≤ a ∧ a ≤ 15)) :
      Answer s (.readMemory a) ⟨.invalidAddress, .nothing, s⟩
  | wrote {c : Command} {a : Int} (v : Byte) (out : Output) (write : c.WritesTo a) (low : 0 ≤ a)
      (high : a ≤ 15) : Answer s c ⟨.ok, out, s.memWrite (BitVec.ofInt 4 a) v⟩
  | notWritten {c : Command} {a : Int} {r : Response} (write : c.WritesTo a)
      (error : r = .invalidAddress ∨ r = .invalidOperand) : Answer s c ⟨r, .nothing, s⟩

/-- What a write by the host answers, whichever command asks. -/
theorem writeCell_answer {c : Command} {a : Int} (write : c.WritesTo a) (v : Int) (out : Output)
    (s : State) : Answer s c (writeCell a v out s) := by
  unfold writeCell
  split_ifs with ha hv
  · exact .wrote _ _ write ha.1 ha.2
  · exact .notWritten write (.inr rfl)
  · exact .notWritten write (.inl rfl)

/-- What a write by the host answers to a malformed text. -/
theorem malformed_answer {c : Command} {a : Int} (write : c.WritesTo a) (s : State) :
    Answer s c (if 0 ≤ a ∧ a ≤ 15 then s.raise .invalidOperand else s.raise .invalidAddress) := by
  split_ifs
  · exact .notWritten write (.inr rfl)
  · exact .notWritten write (.inl rfl)

/-- The inversion of the command port: the answer is one of these. -/
theorem runCommand_cases {c : Command} {r : CommandResult} (h : runCommand c s = .next r) : Answer s c r := by
  have hrun : s.halted = false ∨ s.halted = true := by cases s.halted <;> simp
  cases c with
  | fetch => injection h with h; subst h; exact .fetched
  | decode => injection h with h; subst h; exact .decoded
  | incrementIAR => injection h with h; subst h; exact .incremented
  | execute =>
    simp only [runCommand] at h
    rcases hrun with hrun | hrun
    · cases hd : s.lastDecoded with
      | none => rw [execute_none hrun hd] at h; injection h with h; subst h; exact .noneDecoded hrun hd
      | some i => rw [execute_some hrun hd] at h; injection h with h; subst h; exact .executed i hrun hd
    · rw [execute_halted hrun] at h; injection h with h; subst h; exact .rejected hrun (.inl rfl)
  | step =>
    simp only [runCommand] at h
    rcases hrun with hrun | hrun
    · rw [stepCycle_running hrun] at h; injection h with h; subst h; exact .stepped hrun
    · rw [stepCycle_halted hrun] at h; injection h with h; subst h; exact .rejected hrun (.inr rfl)
  | reset full =>
    cases full
    · injection h with h; subst h; exact .registerReset
    · injection h with h; subst h; exact .fullReset
  | readMemory a =>
    injection h with h; subst h
    unfold readMemory
    split_ifs with ha
    · exact .readCell ha.1 ha.2
    · exact .readNoCell ha
  | writeMemory a v => injection h with h; subst h; exact writeCell_answer (by rfl) _ _ s
  | loadInstruction a v => injection h with h; subst h; exact writeCell_answer (by rfl) _ _ s
  | writeMemoryText a text =>
    injection h with h; subst h
    unfold writeMemoryText
    split
    · exact writeCell_answer (by rfl) _ _ s
    · exact malformed_answer (by rfl) s
  | loadInstructionText a text =>
    injection h with h; subst h
    unfold loadInstructionText
    split
    · exact writeCell_answer (by rfl) _ _ s
    · exact malformed_answer (by rfl) s

end Sys2Proof.Machine
end

