-- ==== Sys2Proof/Machine/Assembler.lean ====
section
/-! DEFINITION. The assembly notation of the spec's programs (30_encoding.md R68; log 26): from a text to the
cells it places. It is no part of the engine; the host places its cells with writeMemory
(70_reset_and_hazards.md R136). -/

namespace Sys2Proof.Assembler

/-- A text as its characters. -/
abbrev Text := List Char

/-- Why a text does not assemble (30_encoding.md R68). -/
inductive AsmError where
  /-- A word that is no mnemonic, directive, label definition or address. -/
  | unknownWord
  /-- An operand that is missing, malformed, or not 0 to 15. -/
  | badOperand
  /-- An operand on an instruction that takes none. -/
  | unexpectedOperand
  /-- A data byte that is missing, malformed, or not 0 to 255. -/
  | badByte
  /-- A label that no line defines. -/
  | unknownLabel
  /-- A line placed outside the cells 0 to 15. -/
  | noCell
  deriving DecidableEq, Repr

/-- An operand as written: a number, or the name of a label. -/
inductive AsmOperand where
  | number (n : Nat)
  | label (name : Text)
  deriving DecidableEq, Repr

/-- What one line puts in its cell. -/
inductive AsmBody where
  | instr (m : Mnemonic) (operand : Option AsmOperand)
  | byte (v : Nat)
  deriving DecidableEq, Repr

/-- A program read so far: the cell of the next line, the labels defined, and the cells with their bodies. -/
structure AsmState where
  next   : Nat
  labels : List (Text × Nat)
  cells  : List (Nat × AsmBody)
  deriving DecidableEq, Repr

/-! ### Words and numbers -/

/-- A text cut at the characters that satisfy a test. -/
def cut (sep : Char → Bool) : Text → List Text
  | [] => [[]]
  | c :: cs =>
    if sep c then [] :: cut sep cs
    else match cut sep cs with
      | w :: ws => (c :: w) :: ws
      | [] => [[c]]

/-- The lines of a text. DESIGN CHOICE (log 30): R68 does not say what ends a line; the newline character alone does. -/
def lines (t : Text) : List Text := cut (· == '\n') t

/-- The words of a line, its comment left out. DESIGN CHOICE (log 30): R68 does not say what separates words; the
space character alone does, so that a tab, or an instruction that follows the colon of its label directly, is read
as part of a word (an unknown one). -/
def words (t : Text) : List Text :=
  (cut (· == ' ') (t.takeWhile (· != ';'))).filter (· != [])

/-- The value of a digit, decimal or hexadecimal. -/
def digitValue (c : Char) : Option Nat :=
  if '0'.toNat ≤ c.toNat && c.toNat ≤ '9'.toNat then some (c.toNat - '0'.toNat)
  else if 'a'.toNat ≤ c.toNat && c.toNat ≤ 'f'.toNat then some (c.toNat - 'a'.toNat + 10)
  else if 'A'.toNat ≤ c.toNat && c.toNat ≤ 'F'.toNat then some (c.toNat - 'A'.toNat + 10)
  else none

/-- The number the digits of a base spell, after `acc`. -/
def digitsValue (base : Nat) : Text → Nat → Option Nat
  | [], acc => some acc
  | c :: cs, acc =>
    match digitValue c with
    | some d => if d < base then digitsValue base cs (base * acc + d) else none
    | none => none

/-- A decimal number: at least one digit, leading zeros allowed (DESIGN CHOICE, log 31). -/
def decimal : Text → Option Nat
  | [] => none
  | c :: cs => digitsValue 10 (c :: cs) 0

/-- A data byte: decimal, or hexadecimal after `0x`, its digits of either case (DESIGN CHOICE, log 31). -/
def byteLiteral : Text → Option Nat
  | '0' :: 'x' :: c :: cs => digitsValue 16 (c :: cs) 0
  | t => decimal t

/-- The mnemonics in capitals, as the assembler spells them; UNKNOWN has no spelling (DESIGN CHOICE, log 31). -/
def spellings : List (Text × Mnemonic) :=
  [ (['N','O','P'], .nop),
    (['L','O','A','D','_','A'], .loadA),
    (['L','O','A','D','_','B'], .loadB),
    (['S','T','O','R','E','_','A'], .storeA),
    (['S','T','O','R','E','_','B'], .storeB),
    (['A','D','D'], .add),
    (['S','U','B'], .sub),
    (['J','U','M','P'], .jump),
    (['J','U','M','P','_','N','E','G'], .jumpNeg),
    (['J','U','M','P','_','Z','E','R','O'], .jumpZero),
    (['A','D','D','I'], .addi),
    (['H','A','L','T'], .halt) ]

/-- The value a list of pairs gives a name. -/
def lookupName {α : Type} (name : Text) (l : List (Text × α)) : Option α :=
  (l.find? fun p => p.1 == name).map (·.2)

/-! ### Reading a program -/

/-- An operand word: a number if it begins with a digit, else a label's name. DESIGN CHOICE (log 31): R68 does not
say which names a label may have. -/
def readOperand (w : Text) : Except AsmError AsmOperand :=
  match w with
  | [] => .error .badOperand
  | c :: _ =>
    if c.isDigit then
      match decimal w with
      | some n => .ok (.number n)
      | none => .error .badOperand
    else .ok (.label w)

/-- The body of a line: `.byte v`, or a mnemonic and at most one operand. -/
def readBody (w : Text) (rest : List Text) : Except AsmError AsmBody :=
  if w = ['.','b','y','t','e'] then
    match rest with
    | [v] =>
      match byteLiteral v with
      | some n => .ok (.byte n)
      | none => .error .badByte
    | _ => .error .badByte
  else match lookupName w spellings, rest with
    | some m, [] => .ok (.instr m none)
    | some m, [v] => (readOperand v).map fun o => .instr m (some o)
    | some _, _ => .error .unexpectedOperand
    | none, _ => .error .unknownWord

/-- The words of one line: `@a` places the line, `name:` labels its cell, then its body, if it has one.
DESIGN CHOICE (log 28): R68 gives no order for a label and an `@a` before the same line; the words are read left to
right, so a label written before the `@a`, on its line or on a line of its own, names the cell before the `@a`, the cell the line is placed at. A word that begins with `@` is a placement, any other that ends in a colon a label,
and a line may begin with any number of them (DESIGN CHOICE, log 31). -/
def readLine : List Text → AsmState → Except AsmError AsmState
  | [], st => .ok st
  | w :: rest, st =>
    match w with
    | '@' :: a =>
      match decimal a with
      | some n => if n < 16 then readLine rest { st with next := n } else .error .noCell
      | none => .error .unknownWord
    | _ =>
      if w.getLast? = some ':' then readLine rest { st with labels := (w.dropLast, st.next) :: st.labels }
      else match readBody w rest with
        | .ok b =>
          if st.next < 16 then .ok { st with next := st.next + 1, cells := st.cells ++ [(st.next, b)] }
          else .error .noCell
        | .error e => .error e

/-- The lines of a program, one after another. -/
def readLines : List Text → AsmState → Except AsmError AsmState
  | [], st => .ok st
  | l :: ls, st =>
    match readLine (words l) st with
    | .ok st' => readLines ls st'
    | .error e => .error e

/-! ### Encoding -/

/-- The value of an operand: 0 to 15. -/
def operandNibble (labels : List (Text × Nat)) : AsmOperand → Except AsmError Nibble
  | .number n => if n < 16 then .ok (BitVec.ofNat 4 n) else .error .badOperand
  | .label name =>
    match lookupName name labels with
    | some n => if n < 16 then .ok (BitVec.ofNat 4 n) else .error .badOperand
    | none => .error .unknownLabel

/-- The instruction of a mnemonic whose kind takes an operand. -/
def withOperand (m : Mnemonic) (labels : List (Text × Nat)) : Option AsmOperand → Except AsmError Instr
  | some o => (operandNibble labels o).map fun v => assemble m 0#4 v
  | none => .error .badOperand

/-- The instruction of a mnemonic whose kind takes none. -/
def withoutOperand (m : Mnemonic) : Option AsmOperand → Except AsmError Instr
  | none => .ok (assemble m 0#4 0#4)
  | some _ => .error .unexpectedOperand

/-- The instruction a line stands for (30_encoding.md R61, R68). DESIGN CHOICE (log 27): R68 gives ADDI a decimal
immediate, gives a label to an Addr operand, and does not call a label on ADDI an error; it is accepted here, its
cell address the immediate. -/
def resolve (labels : List (Text × Nat)) (m : Mnemonic) (o : Option AsmOperand) : Except AsmError Instr :=
  match m with
  | .loadA => withOperand m labels o
  | .loadB => withOperand m labels o
  | .storeA => withOperand m labels o
  | .storeB => withOperand m labels o
  | .jump => withOperand m labels o
  | .jumpNeg => withOperand m labels o
  | .jumpZero => withOperand m labels o
  | .addi => withOperand m labels o
  | .nop => withoutOperand m o
  | .add => withoutOperand m o
  | .sub => withoutOperand m o
  | .halt => withoutOperand m o
  | .unknown => .error .unknownWord

/-- The byte of a line: a data byte, or the canonical encoding of its instruction (30_encoding.md R65, R67). -/
def encodeBody (labels : List (Text × Nat)) : AsmBody → Except AsmError Byte
  | .byte n => if n < 256 then .ok (BitVec.ofNat 8 n) else .error .badByte
  | .instr m o => (resolve labels m o).map encode

/-- The bytes of the placed lines, in the order of the text. DESIGN CHOICE (log 29): R68 is silent on two lines
that `@a` places in one cell; both are listed, so that of the two writes of `loadCommands` the later line's holds. -/
def encodeCells (labels : List (Text × Nat)) : List (Nat × AsmBody) → Except AsmError (List Host.Cell)
  | [] => .ok []
  | (a, b) :: rest =>
    match encodeBody labels b, encodeCells labels rest with
    | .ok v, .ok cells => .ok ((a, v) :: cells)
    | .error e, _ => .error e
    | _, .error e => .error e

/-- The cells a program text places, each with its byte. -/
def assembleText (t : Text) : Except AsmError (List Host.Cell) :=
  match readLines (lines t) { next := 0, labels := [], cells := [] } with
  | .ok st => encodeCells st.labels st.cells
  | .error e => .error e

/-- The commands by which the host places those cells (70_reset_and_hazards.md R136). -/
def loadCommands (cells : List Host.Cell) : List Machine.Command :=
  cells.map fun c => .writeMemory c.1 c.2.toNat

end Sys2Proof.Assembler
end

