-- ==== Sys2Proof/Tests/Slice0.lean ====
section
/-! SUPPORT. Tests: expected values are the spec's worked examples and vectors (95_test_vectors.md) or hand
calculation from the rules; and, for each statement with hypotheses, a witness that meets them. -/

namespace Sys2Proof.Tests

open Sys2Proof.Machine

/-! ### Well-formedness refuses an ill-formed term of each check -/

/-- ADDI is refused where it is absent, and accepted where it is present (00_scope.md R8). -/
theorem test_wellFormed_addi :
    Instr.wellFormed .canonical (.addi 3#4) = false ∧ Instr.wellFormed ⟨.none, true⟩ (.addi 3#4) = true := by
  decide

/-- UNKNOWN is refused with an opcode that has a table entry, first and last, and accepted at each end of the
unassigned range (30_encoding.md R64). -/
theorem test_wellFormed_unknown :
    Instr.wellFormed .canonical (.unknown 0b0000#4) = false ∧
    Instr.wellFormed .canonical (.unknown 0b1001#4) = false ∧
    Instr.wellFormed .canonical (.unknown 0b1111#4) = false ∧
    Instr.wellFormed .canonical (.unknown 0b1011#4) = true ∧
    Instr.wellFormed .canonical (.unknown 0b1110#4) = true := by
  decide

/-- UNKNOWN with opcode 1010 is refused exactly where ADDI is present (30_encoding.md R64). -/
theorem test_wellFormed_unknown_1010 :
    Instr.wellFormed .canonical (.unknown 0b1010#4) = true ∧
    Instr.wellFormed ⟨.none, true⟩ (.unknown 0b1010#4) = false := by
  decide

/-- A memory out of order, with a listed 0 or with an address above 15 is not canonical. -/
theorem test_memory_wf_refuses :
    Memory.wf [(5, 1#8), (4, 1#8)] = false ∧ Memory.wf [(4, 1#8), (4, 2#8)] = false ∧
    Memory.wf [(4, 0#8)] = false ∧ Memory.wf [(16, 1#8)] = false ∧ Memory.wf [(15, 1#8)] = true := by
  decide

/-! ### Decoding of words written out from the encodings (30_encoding.md R63, R67; V1) -/

theorem test_decode_nop : decodeByte .canonical 0b00000101#8 = .nop := by decide
theorem test_decode_loadA : decodeByte .canonical 0b00010101#8 = .loadA 5#4 := by decide
theorem test_decode_loadB : decodeByte .canonical 0b00100101#8 = .loadB 5#4 := by decide
theorem test_decode_storeA : decodeByte .canonical 0b00110101#8 = .storeA 5#4 := by decide
theorem test_decode_storeB : decodeByte .canonical 0b01000101#8 = .storeB 5#4 := by decide
theorem test_decode_add : decodeByte .canonical 0b01011001#8 = .add := by decide
theorem test_decode_add_other_nibble : decodeByte .canonical 0b01010101#8 = .add := by decide
theorem test_decode_sub : decodeByte .canonical 0b01101001#8 = .sub := by decide
theorem test_decode_jump : decodeByte .canonical 0b01111111#8 = .jump 15#4 := by decide
theorem test_decode_jumpNeg : decodeByte .canonical 0b10000000#8 = .jumpNeg 0#4 := by decide
theorem test_decode_jumpZero : decodeByte .canonical 0b10010110#8 = .jumpZero 6#4 := by decide
theorem test_decode_addi_absent : decodeByte .canonical 0b10100101#8 = .unknown 0b1010#4 := by decide
theorem test_decode_addi_present : decodeByte ⟨.none, true⟩ 0b10100101#8 = .addi 5#4 := by decide
theorem test_decode_unknown : decodeByte .canonical 0b11100101#8 = .unknown 0b1110#4 := by decide
theorem test_decode_halt : decodeByte .canonical 0b11110101#8 = .halt := by decide

/-- The encodings R67 gives as examples. -/
theorem test_encode_examples :
    encode (.loadA 5#4) = 0x15#8 ∧ encode (.jumpZero 6#4) = 0x96#8 ∧ encode (.storeB 15#4) = 0x4F#8 ∧
    encode .add = 0x59#8 ∧ encode .sub = 0x69#8 ∧ encode .nop = 0x00#8 ∧ encode .halt = 0xF0#8 := by
  decide

/-- The host's numbering of a table word: one byte. -/
theorem test_decodeTableWord :
    decodeTableWord 8 0x15 = some (.loadA 5#4) ∧ decodeTableWord 8 0xF0 = some .halt ∧
    decodeTableWord 8 0xE0 = some (.unknown 0b1110#4) ∧ decodeTableWord 0 0 = none := by
  decide

/-- 30_encoding.md R66: 80 bytes decode to UNKNOWN without ADDI and 64 with it. -/
theorem test_count_unknown_bytes :
    ((List.range 256).filter fun k => (decodeByte .canonical (BitVec.ofNat 8 k)).mnemonic == .unknown).length = 80 ∧
    ((List.range 256).filter fun k =>
      (decodeByte ⟨.none, true⟩ (BitVec.ofNat 8 k)).mnemonic == .unknown).length = 64 := by
  decide +kernel

/-! ### One instruction at a time -/

/-- The power-on state with A, B, Z, N and the memory set, and O set so that its clearing shows. -/
def start (a b : Byte) (z n : Bool) (m : Memory) : State :=
  { State.reset with regA := a, regB := b, flagZ := z, flagN := n, flagO := true, mem := m }

/-- The state an instruction or a step answers, if it answers one. -/
def reached : Host.Outcome State Fault Refusal → Option State
  | .next s => some s
  | .fault _ => none
  | .refused _ => none

/-- A, B, Z, N and O after an instruction. -/
def regsAndFlags (o : Host.Outcome State Fault Refusal) : Option (Byte × Byte × Bool × Bool × Bool) :=
  (reached o).map fun s => (s.regA, s.regB, s.flagZ, s.flagN, s.flagO)

/-- V3, row 1: under NONE a load of 0 leaves Z and N. -/
theorem test_loadA_none : regsAndFlags (exec (.loadA 9#4) (start 7#8 2#8 false true [])) =
    some (0x00#8, 2#8, false, true, false) := by decide

/-- V3, row 3: under A_ONLY a load of 0 into A sets Z and clears N. -/
theorem test_loadA_aOnly :
    regsAndFlags (exec (.loadA 9#4) { start 7#8 2#8 false true [] with config := ⟨.aOnly, false⟩ }) =
    some (0x00#8, 2#8, true, false, false) := by decide

/-- V3, row 5: under BOTH a load of 0x80 into B clears Z and sets N. -/
theorem test_loadB_both :
    regsAndFlags (exec (.loadB 9#4) { start 7#8 2#8 true false [(9, 0x80#8)] with config := ⟨.both, false⟩ }) =
    some (7#8, 0x80#8, false, true, false) := by decide

/-- V3, row 6: under A_ONLY a load into B leaves Z and N. -/
theorem test_loadB_aOnly :
    regsAndFlags (exec (.loadB 9#4) { start 7#8 2#8 true false [(9, 0x80#8)] with config := ⟨.aOnly, false⟩ }) =
    some (7#8, 0x80#8, true, false, false) := by decide

/-- V3: STORE_A 12 with A = 0xC3. -/
theorem test_storeA : (reached (exec (.storeA 12#4) (start 0xC3#8 1#8 true true [(15, 9#8)]))).map (·.mem) =
    some [(12, 0xC3#8), (15, 9#8)] := by decide

/-- A store of 0 takes the entry out of the canonical memory. -/
theorem test_storeA_zero : (reached (exec (.storeA 12#4) (start 0#8 1#8 true true [(12, 9#8)]))).map (·.mem) =
    some [] := by decide

/-- V3: STORE_B 15 with B = 0x01. -/
theorem test_storeB : (reached (exec (.storeB 15#4) (start 9#8 1#8 true true [(3, 9#8)]))).map (·.mem) =
    some [(3, 9#8), (15, 1#8)] := by decide

/-- W3 and V4: 0x7F + 0x01. -/
theorem test_add_overflow : regsAndFlags (exec .add (start 0x7F#8 0x01#8 true false [])) =
    some (0x80#8, 0x01#8, false, true, true) := by decide

/-- V4: 0xFF + 0x01, the carry lost. -/
theorem test_add_carry : regsAndFlags (exec .add (start 0xFF#8 0x01#8 false true [])) =
    some (0x00#8, 0x01#8, true, false, false) := by decide

/-- W3 and V5: 0x00 - 0x01. -/
theorem test_sub_borrow : regsAndFlags (exec .sub (start 0x00#8 0x01#8 true false [])) =
    some (0xFF#8, 0x01#8, false, true, false) := by decide

/-- V5: 0x80 - 0x01. -/
theorem test_sub_overflow : regsAndFlags (exec .sub (start 0x80#8 0x01#8 true true [])) =
    some (0x7F#8, 0x01#8, false, false, true) := by decide

/-- V6: 0x7F + 1. -/
theorem test_addi_overflow : regsAndFlags (exec (.addi 1#4) (start 0x7F#8 0x55#8 true false [])) =
    some (0x80#8, 0x55#8, false, true, true) := by decide

/-- V6: 0xFF + 15. -/
theorem test_addi_carry : regsAndFlags (exec (.addi 15#4) (start 0xFF#8 0x55#8 true true [])) =
    some (0x0E#8, 0x55#8, false, false, false) := by decide

/-- One step from IAR 4 or 6 on a byte there: IAR, `jumped`, `halted` and O after it. -/
def stepFrom (iar : Addr) (byte : Byte) (z n : Bool) : Option (Addr × Bool × Bool × Bool) :=
  (reached (step { start 1#8 2#8 z n [(iar.toNat, byte)] with iar := iar })).map
    fun s => (s.iar, s.jumped, s.halted, s.flagO)

/-- V7: JUMP 2 and JUMP to itself. -/
theorem test_jump : stepFrom 4#4 0x72#8 false false = some (2#4, false, false, false) ∧
    stepFrom 4#4 0x74#8 false false = some (4#4, false, false, false) := by decide

/-- V7: JUMP_NEG 9 taken and not taken. -/
theorem test_jumpNeg : stepFrom 4#4 0x89#8 false true = some (9#4, false, false, false) ∧
    stepFrom 4#4 0x89#8 true false = some (5#4, false, false, false) := by decide

/-- V7: JUMP_ZERO 12 taken and not taken. -/
theorem test_jumpZero : stepFrom 4#4 0x9C#8 true false = some (12#4, false, false, false) ∧
    stepFrom 4#4 0x9C#8 false true = some (5#4, false, false, false) := by decide

/-- W6: a conditional jump not taken at 15 is followed by 0. -/
theorem test_jumpNeg_wraps : stepFrom 15#4 0x83#8 true false = some (0#4, false, false, false) := by decide

/-- V8: NOP, with the non-canonical nibble. -/
theorem test_nop : stepFrom 6#4 0x0F#8 true true = some (7#4, false, false, false) := by decide

/-- V8: HALT, with the non-canonical nibble. -/
theorem test_halt : stepFrom 6#4 0xFA#8 true true = some (6#4, false, true, false) := by decide

/-- V8: an unknown opcode, and 1010 without ADDI, halt at their own address. -/
theorem test_unknown : stepFrom 6#4 0xE7#8 true true = some (6#4, false, true, false) ∧
    stepFrom 6#4 0xA2#8 true true = some (6#4, false, true, false) := by decide

/-! ### Commands -/

/-- The response of a command, if it is answered. -/
def responseOf : Host.Outcome CommandResult Fault Refusal → Option (Response × Output)
  | .next r => some (r.response, r.output)
  | .fault _ => none
  | .refused _ => none

/-- V8: HALT answers OK, an unknown opcode UnknownOpcode, a halted engine Halted. -/
theorem test_step_responses :
    responseOf (stepCycle (start 0#8 0#8 false false [(0, 0xF0#8)])) = some (.ok, .nothing) ∧
    responseOf (stepCycle (start 0#8 0#8 false false [(0, 0xB0#8)])) = some (.unknownOpcode, .nothing) ∧
    responseOf (stepCycle (State.reset.setHalted true)) = some (.halted, .nothing) := by
  decide

/-- V2: fetch at IAR 3 of 0x2E. -/
theorem test_fetch :
    let r := fetch { State.reset with iar := 3#4, mem := [(3, 0x2E#8)] }
    r.output = .byte 0x2E#8 ∧ r.state.irOp = 0b0010#4 ∧ r.state.irOpr = 0b1110#4 ∧ r.state.iar = 3#4 := by
  decide

/-- V2: increment at 15 wraps; a marked jump keeps IAR and is cleared. -/
theorem test_incrementIAR :
    (incrementIAR { State.reset with iar := 15#4 }).state.iar = 0#4 ∧
    (incrementIAR { State.reset with iar := 7#4, jumped := true }).state.iar = 7#4 ∧
    (incrementIAR { State.reset with iar := 7#4, jumped := true }).state.jumped = false := by
  decide

/-- V10, row 2: a second execute without a decode finds none. -/
theorem test_execute_twice :
    (reached (runCommands [.fetch, .decode, .execute, .execute] (start 1#8 1#8 false false [(0, 0x59#8)]))).map
      (·.regA) = some 2#8 := by
  decide

/-- V10, row 4: the operand is read at execute. -/
theorem test_operand_read_at_execute :
    (reached (runCommands [.fetch, .decode, .writeMemory 5 9, .execute]
      (start 0#8 0#8 false false [(0, 0x15#8), (5, 1#8)]))).map (·.regA) = some 9#8 := by
  decide

/-- V10, row 6: the increment after the second execute consumes the older jump's mark. -/
theorem test_older_jump_mark :
    (reached (runCommands [.fetch, .decode, .execute, .fetch, .decode, .execute, .incrementIAR]
      (start 0#8 0#8 false false [(0, 0x73#8)]))).map (fun s => (s.iar, s.jumped)) = some (3#4, false) := by
  decide

/-- V9: the accessors' errors and the echo. -/
theorem test_accessors :
    (readMemory 16 State.reset).response = .invalidAddress ∧
    (readMemory (-1) State.reset).response = .invalidAddress ∧
    (writeMemory 3 256 State.reset).response = .invalidOperand ∧
    (writeMemory 16 300 State.reset).response = .invalidAddress ∧
    (writeMemory 15 255 State.reset).state.mem = [(15, 0xFF#8)] ∧
    (loadInstruction 0 0x15 State.reset).output = .echo .loadA ∧
    (loadInstruction 0 0xB0 State.reset).output = .echo .unknown := by
  decide

/-- V9: the text form. -/
theorem test_text_form :
    (writeMemoryText 0 ['0', '0', '0', '1', '0', '1', '0', '1'] State.reset).state.mem = [(0, 0x15#8)] ∧
    (writeMemoryText 0 ['0', '0', '0', '1', '0', '1', '0'] State.reset).response = .invalidOperand ∧
    (writeMemoryText 0 ['0', '0', '0', '1', '0', '1', '0', 'x'] State.reset).response = .invalidOperand ∧
    (writeMemoryText 16 ['x'] State.reset).response = .invalidAddress := by
  decide

/-- The response numbers of R115. -/
theorem test_response_codes :
    [Response.ok, .invalidAddress, .invalidOperand, .unknownOpcode, .noDecodedInstruction, .halted].map
      Response.code = [0, 1, 2, 3, 4, 5] := by
  decide

/-- The host's placement of a word runs it as the first instruction after reset. -/
theorem test_withFetchWord :
    (reached (step (State.reset.withFetchWord 8 0x72))).map (·.iar) = some 2#4 := by
  decide

/-! ### The assembly notation (30_encoding.md R68) -/

/-- Label, comment, placement, hexadecimal byte, immediate, and the canonical ADD and HALT (R65). -/
theorem test_assemble : (Assembler.assembleText
    (['l', ':', ' ', 'S', 'T', 'O', 'R', 'E', '_', 'B', ' ', 'l', ' ', ';', ' ', 'x'] ++ '\n' ::
     ['@', '1', '4', ' ', '.', 'b', 'y', 't', 'e', ' ', '0', 'x', '1', 'F'] ++ '\n' ::
     ['@', '3'] ++ '\n' :: ['A', 'D', 'D', 'I', ' ', '1', '5'] ++ '\n' ::
     ['A', 'D', 'D'] ++ '\n' :: ['H', 'A', 'L', 'T'])).toOption =
    some [(0, 0x40#8), (14, 0x1F#8), (3, 0xAF#8), (4, 0x59#8), (5, 0xF0#8)] := by
  decide

/-- An operand outside 0 to 15, and an operand on an instruction that takes none, are errors. -/
theorem test_assemble_errors :
    (Assembler.assembleText ['J', 'U', 'M', 'P', ' ', '1', '6']).toOption = none ∧
    (Assembler.assembleText ['A', 'D', 'D', ' ', '1']).toOption = none ∧
    (Assembler.assembleText ['J', 'U', 'M', 'P', ' ', 'x']).toOption = none := by
  decide

/-- The model's own choices where R68 is silent (log 27, 28, 29): a label as ADDI's immediate, a label before an
`@a`, two lines in one cell. -/
theorem test_assemble_choices :
    (Assembler.assembleText ['l', ':', ' ', '@', '4', ' ', 'A', 'D', 'D', 'I', ' ', 'l']).toOption = some [(4, 0xA0#8)] ∧
    (Assembler.assembleText (['@', '2', ' ', 'N', 'O', 'P'] ++ '\n' :: ['@', '2', ' ', 'H', 'A', 'L', 'T'])).toOption =
      some [(2, 0x00#8), (2, 0xF0#8)] := by
  decide

/-- The model's own choice where R68 is silent (log 30): a space after the colon of a label is needed, and a tab
separates no words. -/
theorem test_assemble_separators :
    (Assembler.assembleText ['l', ':', ' ', 'S', 'U', 'B']).toOption = some [(0, 0x69#8)] ∧
    (Assembler.assembleText ['l', ':', 'S', 'U', 'B']).toOption = none ∧
    (Assembler.assembleText ['A', 'D', 'D', 'I', '\t', '1']).toOption = none := by
  decide

/-! ### Witnesses: a state and operands that meet the hypotheses of each statement -/

/-- A running engine at address 2 with A, B, a stored byte and a byte there. -/
def at2 (byte : Byte) : State := { start 0x7F#8 1#8 false false [(2, byte)] with iar := 2#4 }

/-- A running engine that holds a decoded instruction. -/
def held (i : Instr) : State := (at2 0x59#8).setLastDecoded (some i)

theorem witness_DecodeOfEncodeIsTheInstruction :
    Instr.wellFormed ⟨.none, true⟩ (.addi 15#4) = true ∧ Instr.wellFormed .canonical (.unknown 14#4) = true := by
  decide

theorem witness_DecodedByteKeepsItsFields : (decodeByte .canonical 0x4F#8).value = some 15#4 := by decide

theorem witness_RecordDeterminesTheInstruction :
    Instr.wellFormed .canonical (.jump 15#4) = true ∧ (Instr.jump 15#4).record = (Instr.jump 15#4).record := by
  decide

theorem witness_LoadACompletesWithTheLoadedByte : 0x59#8 = Memory.read (at2 0x59#8).mem (2#4).toNat := by decide

theorem witness_LoadBCompletesWithTheLoadedByte : 0x00#8 = Memory.read (at2 0x59#8).mem (15#4).toNat := by decide

theorem witness_StoreACompletesWithTheCellWritten :
    Memory.wf (at2 0x3F#8).mem = true ∧ (at2 0x3F#8).halted = false ∧ 14 ≠ (effectiveAddress 15#4).toNat := by
  decide

theorem witness_StoreBCompletesWithTheCellWritten :
    Memory.wf (at2 0x40#8).mem = true ∧ (at2 0x40#8).halted = false ∧ 1 ≠ (effectiveAddress 0#4).toNat := by
  decide

theorem witness_AddCompletesWithTheSumAndFlags :
    0x80#8 = BitVec.ofNat 8 (((at2 0#8).regA.toNat + (at2 0#8).regB.toNat) % 256) := by decide

theorem witness_SubCompletesWithTheDifferenceAndFlags :
    0x7E#8 = BitVec.ofNat 8 ((256 + (at2 0#8).regA.toNat - (at2 0#8).regB.toNat) % 256) := by decide

theorem witness_AddiCompletesWithTheSumAndFlags :
    0x8E#8 = BitVec.ofNat 8 (((at2 0#8).regA.toNat + (15#4).toNat) % 256) := by decide

/-- Each clause of the range test where it says true: 127 + 1, -128 - 1, 127 + 15. -/
theorem witness_OverflowIsTheSignedRangeTest :
    (∃ t, exec .add (start 0x7F#8 1#8 false false []) = .next t ∧ t.flagO = true) ∧
    (∃ t, exec .sub (start 0x80#8 1#8 false false []) = .next t ∧ t.flagO = true) ∧
    ∃ t, exec (.addi 15#4) (start 0x7F#8 1#8 false false []) = .next t ∧ t.flagO = true :=
  ⟨⟨_, rfl, rfl⟩, ⟨_, rfl, rfl⟩, _, rfl, rfl⟩

theorem witness_JumpCompletesAtTheTarget : (at2 0x7F#8).halted = false := by decide

theorem witness_JumpNegCompletesOnBothFlagValues :
    (at2 0x8F#8).halted = false ∧ (at2 0x8F#8).flagN = false ∧ (at2 0x8F#8).jumped = false := by decide

theorem witness_JumpZeroCompletesOnBothFlagValues :
    (at2 0x9F#8).halted = false ∧ (at2 0x9F#8).flagZ = false ∧ (at2 0x9F#8).jumped = false := by decide

theorem witness_HaltCompletesHalted : Memory.wf (at2 0xF0#8).mem = true := by decide

theorem witness_UnknownOpcodeFailsOnlyAtExecute : (at2 0xE0#8).halted = false ∧
    decodeByte (at2 0xE0#8).config (Memory.read (at2 0xE0#8).mem (at2 0xE0#8).iar.toNat) = .unknown 14#4 := by
  decide

theorem witness_AccumulatorHasOnlyItsReadersAndWriters :
    (∃ t, exec (.loadB 2#4) (at2 0x59#8) = .next t) ∧
    (∃ t, Memory.wf (at2 0x3F#8).mem = true ∧ exec (.storeA 15#4) (at2 0x3F#8) = .next t) ∧
    ∃ r, runCommand .fetch (at2 0x59#8) = .next r :=
  ⟨⟨_, rfl⟩, ⟨_, by decide, rfl⟩, _, rfl⟩

theorem witness_RegisterBHasOnlyItsReadersAndWriters :
    Memory.wf (at2 0x4F#8).mem = true ∧ (∃ t, exec (.storeB 15#4) (at2 0x4F#8) = .next t) ∧
    (∃ t, exec .add (at2 0#8) = .next t) ∧ (∃ t, exec .sub (at2 0#8) = .next t) ∧
    (∃ t, exec (.storeA 15#4) (at2 0#8) = .next t) ∧ ∃ r, runCommand (.writeMemory 15 255) (at2 0#8) = .next r :=
  ⟨by decide, ⟨_, rfl⟩, ⟨_, rfl⟩, ⟨_, rfl⟩, ⟨_, rfl⟩, _, rfl⟩

theorem witness_ZeroFlagHasOnlyItsWriters : (at2 0#8).jumped = false ∧
    (∃ t, exec (.jumpZero 15#4) (at2 0#8) = .next t) ∧ ∃ r, runCommand .decode (at2 0#8) = .next r :=
  ⟨by decide, ⟨_, rfl⟩, _, rfl⟩

theorem witness_NegativeFlagHasOnlyItsWriters : (at2 0#8).jumped = false ∧
    (∃ t, exec (.jumpNeg 15#4) (at2 0#8) = .next t) ∧ ∃ r, runCommand .incrementIAR (at2 0#8) = .next r :=
  ⟨by decide, ⟨_, rfl⟩, _, rfl⟩

theorem witness_OverflowFlagLastsOneExecute :
    ∃ t, exec .add (at2 0#8) = .next t ∧ t.flagO = true := ⟨_, rfl, rfl⟩

theorem witness_InstructionRegisterIsWrittenByFetchOnly :
    (at2 0#8).halted = false ∧ (∃ r, runCommand .execute (held .add) = .next r) ∧
    ∃ r, runCommand (.reset true) (held .add) = .next r := ⟨by decide, ⟨_, rfl⟩, _, rfl⟩

theorem witness_InstructionAddressHasOnlyItsWriters :
    ∃ r, runCommand .execute (held (.jump 15#4)) = .next r ∧ r.state.iar ≠ (held (.jump 15#4)).iar :=
  ⟨_, rfl, by decide⟩

theorem witness_HaltedIsSetByHaltAndClearedByReset :
    (∃ r, runCommand .step (at2 0xF0#8) = .next r ∧ (at2 0xF0#8).halted = false ∧ r.state.halted = true) ∧
    (∃ r, runCommand (.reset false) ((at2 0#8).setHalted true) = .next r ∧ r.state.halted = false) ∧
    ∃ r, runCommand .incrementIAR ((at2 0#8).setHalted true) = .next r :=
  ⟨⟨_, rfl, by decide, rfl⟩, ⟨_, rfl, rfl⟩, _, rfl⟩

theorem witness_JumpMarkerIsSetByTakenJumpsAndClearedByIncrement :
    (∃ r, runCommand .execute (held (.jump 15#4)) = .next r ∧ (held (.jump 15#4)).jumped = false ∧
      r.state.jumped = true) ∧
    (at2 0#8).halted = false ∧ ∃ r, runCommand (.readMemory 15) (at2 0#8) = .next r :=
  ⟨⟨_, rfl, by decide, rfl⟩, by decide, _, rfl⟩

theorem witness_CellsChangeOnlyThroughStoresAndHostWrites :
    (∃ r, runCommand .step (at2 0x3F#8) = .next r ∧
      Memory.read r.state.mem 15 ≠ Memory.read (at2 0x3F#8).mem 15) ∧
    ∃ r, runCommand (.writeMemory 0 255) (at2 0x3F#8) = .next r ∧
      Memory.read r.state.mem 0 ≠ Memory.read (at2 0x3F#8).mem 0 :=
  ⟨⟨_, rfl, by decide⟩, _, rfl, by decide⟩

theorem witness_ConfigurationNeverChanges : ∃ r, runCommand .step (at2 0x59#8) = .next r := ⟨_, rfl⟩

theorem witness_InstructionsThatStoreNothingKeepTheRest :
    ∃ t, exec .nop (at2 0#8) = .next t ∧ ∀ a, Instr.nop ≠ .storeA a ∧ Instr.nop ≠ .storeB a :=
  ⟨_, rfl, fun _ => ⟨nofun, nofun⟩⟩

theorem witness_StoresKeepEverythingButTheirCell :
    ∃ t, exec (.storeB 15#4) (at2 0x4F#8) = .next t ∧ 0 ≠ (effectiveAddress 15#4).toNat := ⟨_, rfl, by decide⟩

theorem witness_FetchReadsTheCellAtTheInstructionAddress :
    (at2 0x59#8).halted = false ∧ 0x59#8 = Memory.read (at2 0x59#8).mem (at2 0x59#8).iar.toNat ∧
    ((at2 0#8).setHalted true).halted = true := by decide

theorem witness_DecodeHoldsTheInstructionInTheRegister :
    (at2 0#8).halted = false ∧
    Instr.nop = decodeByte (at2 0#8).config ((at2 0#8).irOp ++ (at2 0#8).irOpr) := by decide

theorem witness_ExecuteConsumesTheDecodedInstruction :
    (held (.unknown 14#4)).halted = false ∧ (held (.unknown 14#4)).lastDecoded = some (.unknown 14#4) ∧
    (at2 0#8).halted = false ∧ (at2 0#8).lastDecoded = none := by decide

theorem witness_IncrementAdvancesModuloSixteen :
    (at2 0#8).halted = false ∧ ((at2 0#8).setHalted true).halted = true := by decide

theorem witness_StepExecutesTheByteAtTheInstructionAddress :
    (at2 0x59#8).halted = false ∧ 0x59#8 = Memory.read (at2 0x59#8).mem (at2 0x59#8).iar.toNat ∧
    Instr.add = decodeByte (at2 0x59#8).config 0x59#8 ∧
    ∃ t, exec .add { at2 0x59#8 with
      irOp := opField 0x59#8, irOpr := oprField 0x59#8, lastDecoded := some .add } = .next t :=
  ⟨by decide, by decide, by decide, _, rfl⟩

theorem witness_StepLeadsToTheNextInstructionAddress :
    (at2 0x7F#8).halted = false ∧ (∃ t, step (at2 0x7F#8) = .next t) ∧
    3#4 = (if (at2 0x7F#8).jumped then (at2 0x7F#8).iar else (at2 0x7F#8).iar + 1#4) :=
  ⟨by decide, ⟨_, rfl⟩, by decide⟩

theorem witness_HaltedEngineRejectsEveryCycleCommand : ((at2 0#8).setHalted true).halted = true := by decide

theorem witness_ErrorResponsesChangeNoState :
    (∃ r, runCommand (.readMemory 16) (at2 0#8) = .next r ∧ r.response = .invalidAddress) ∧
    ∃ r, runCommand .step (at2 0xB0#8) = .next r ∧ r.response = .unknownOpcode :=
  ⟨⟨_, rfl, by decide⟩, _, rfl, by decide⟩

theorem witness_StepIgnoresStaleInstructionAndOverflow : (at2 0x59#8).halted = false := by decide

theorem witness_RunIsRepeatedStepUntilHalted :
    ∃ t, Machine.run 1 (at2 0xF0#8) = .next t ∧ t.halted = true := ⟨_, rfl, rfl⟩

theorem witness_RegisterResetClearsAllButMemory :
    ∃ r, runCommand (.reset false) ((at2 0#8).setHalted true) = .next r ∧ r.state.halted = false := ⟨_, rfl, rfl⟩

theorem witness_FullResetZeroesTheMemoryToo : Memory.wf (at2 0x59#8).mem = true := by decide

/-- The bounds of the clauses: addresses 15, 16 and -1, values 256 and -1. -/
theorem witness_AccessorsCheckAddressThenValue :
    ((0 : Int) ≤ 15 ∧ (15 : Int) ≤ 15) ∧ ((16 : Int) < 0 ∨ (15 : Int) < 16) ∧ ((-1 : Int) < 0 ∨ (15 : Int) < -1) ∧
    ((256 : Int) < 0 ∨ (255 : Int) < 256) ∧ ((-1 : Int) < 0 ∨ (255 : Int) < -1) := by decide

theorem witness_HostReadReturnsTheHostWrite :
    Memory.wf (at2 0x59#8).mem = true ∧ ((0 : Int) ≤ 15 ∧ (15 : Int) ≤ 15) ∧ ((0 : Int) ≤ 255 ∧ (255 : Int) ≤ 255) ∧
    14 ≠ (15 : Int).toNat := by decide

theorem witness_LoadInstructionWritesAndEchoes :
    (loadInstruction 15 255 (at2 0#8)).response = .ok ∧ (loadInstruction 16 255 (at2 0#8)).response ≠ .ok := by decide

theorem witness_TextFormIsTheEightDigitsOfAByte :
    parseCell ['1', '1', '1', '1', '0', '0', '0', '0'] = some 0xF0 ∧ parseCell ['2'] = none := by decide

theorem witness_ReadReturnsTheLatestWrite : Memory.wf (at2 0x59#8).mem = true := by decide

/-- Both cases: STORE_A 3 (0x33) and STORE_B 3 (0x43) in cell 2. -/
theorem witness_StoreIntoTheNextCellIsFetchedNext :
    (Memory.wf (at2 0x33#8).mem = true ∧ (at2 0x33#8).halted = false ∧ (at2 0x33#8).jumped = false ∧
      decodeByte (at2 0x33#8).config (Memory.read (at2 0x33#8).mem (at2 0x33#8).iar.toNat) =
        .storeA ((at2 0x33#8).iar + 1#4) ∧ 0x7F#8 = (at2 0x33#8).regA ∧ ∃ t, step (at2 0x33#8) = .next t) ∧
    Memory.wf (at2 0x43#8).mem = true ∧ (at2 0x43#8).halted = false ∧ (at2 0x43#8).jumped = false ∧
    decodeByte (at2 0x43#8).config (Memory.read (at2 0x43#8).mem (at2 0x43#8).iar.toNat) =
      .storeB ((at2 0x43#8).iar + 1#4) ∧ 1#8 = (at2 0x43#8).regB ∧ ∃ t, step (at2 0x43#8) = .next t :=
  ⟨⟨by decide, by decide, by decide, by decide, by decide, _, rfl⟩,
    by decide, by decide, by decide, by decide, by decide, _, rfl⟩

theorem witness_HostWriteAfterFetchLeavesTheFetchedInstruction :
    Memory.wf (at2 0x59#8).mem = true ∧ (at2 0x59#8).halted = false := by decide

theorem witness_EveryStepKeepsTheInvariant :
    Safety.Inv (at2 0x3F#8) ∧ ∃ t, step (at2 0x3F#8) = .next t := ⟨⟨by decide, nofun⟩, _, rfl⟩

theorem witness_EveryCommandKeepsTheInvariant :
    Safety.Inv (at2 0x3F#8) ∧ ∃ r, runCommand .decode (at2 0x3F#8) = .next r := ⟨⟨by decide, nofun⟩, _, rfl⟩

theorem witness_CanonicalMemoryIsItsSixteenCells :
    Memory.wf [(0, 1#8), (15, 255#8)] = true ∧
    ∀ a : Addr, Memory.read [(0, 1#8), (15, 255#8)] a.toNat = Memory.read [(0, 1#8), (15, 255#8)] a.toNat :=
  ⟨by decide, fun _ => rfl⟩

end Sys2Proof.Tests
end

section
/-! Every command is answered (00_scope.md R12): `execute()` and `step()` are the two commands whose outcome comes
from `exec`, and `exec` never faults or refuses. -/

namespace Sys2Proof.Machine

/-- 40_cycle.md R75: halted, nothing decoded or an instruction held, `execute()` has a response. -/
theorem execute_answered (s : State) : ∃ r, execute s = .next r := by
  cases hrun : s.halted with
  | true => exact ⟨_, execute_halted hrun⟩
  | false =>
    cases hd : s.lastDecoded with
    | none => exact ⟨_, execute_none hrun hd⟩
    | some i => exact ⟨_, execute_some hrun hd⟩

/-- 40_cycle.md R80, R82: `step()` runs a cycle on a running engine and answers Halted on a halted one. -/
theorem stepCycle_answered (s : State) : ∃ r, stepCycle s = .next r := by
  cases hrun : s.halted with
  | true => exact ⟨_, stepCycle_halted hrun⟩
  | false => exact ⟨_, stepCycle_running hrun⟩

/-- 00_scope.md R12: the commands that run no instruction answer by definition, the other two by their lemmas. -/
theorem runCommand_answered (c : Command) (s : State) : ∃ r, runCommand c s = .next r := by
  cases c with
  | execute => exact execute_answered s
  | step => exact stepCycle_answered s
  | reset full => cases full <;> exact ⟨_, rfl⟩
  | fetch | decode | incrementIAR | readMemory | writeMemory | loadInstruction | writeMemoryText
  | loadInstructionText => exact ⟨_, rfl⟩

/-- The machine's step is total: `step()` without its response. -/
theorem step_total (s : State) : ∃ t, step s = .next t := by
  cases hrun : s.halted with
  | true => exact ⟨s, step_halted hrun⟩
  | false => exact ⟨_, step_running hrun⟩

/-- Settles O42: the command port and the step answer in every state. -/
theorem everyCommandIsAnswered : Obligations.EveryCommandIsAnswered :=
  ⟨runCommand_answered, step_total⟩

end Sys2Proof.Machine
end

section
/-! What a command leaves, said once for the proofs about the elements of the state (10_state.md), and each element
of the state after an instruction. -/

namespace Sys2Proof.Machine

/-! ### The state a command leaves -/

/-- The states a command can leave, without its answer: the reads and the errors are one case. -/
inductive Effect (s : State) : Command → State → Prop where
  | unchanged (c : Command) : Effect s c s
  | fetched (running : s.halted = false) :
      Effect s .fetch (s.setIr (opField (s.memRead s.iar)) (oprField (s.memRead s.iar)))
  | decoded (running : s.halted = false) :
      Effect s .decode (s.setLastDecoded (some (decodeFields s.config s.irOp s.irOpr)))
  | executed (i : Instr) (running : s.halted = false) (held : s.lastDecoded = some i) :
      Effect s .execute (s.after i)
  | incremented (running : s.halted = false) :
      Effect s .incrementIAR ((s.setIar (if s.jumped then s.iar else s.iar + 1#4)).setJumped false)
  | stepped (running : s.halted = false) :
      Effect s .step (incrementIAR (s.fetched.after s.current)).state
  | registerReset : Effect s (.reset false) s.registerReset
  | fullReset : Effect s (.reset true) s.fullReset
  | wrote {c : Command} {a : Int} (v : Byte) (write : c.WritesTo a) (low : 0 ≤ a) (high : a ≤ 15) :
      Effect s c (s.memWrite (BitVec.ofInt 4 a) v)

variable {s t : State} {c : Command} {r : CommandResult}

/-- Every answer leaves one of these states. -/
theorem Answer.effect (h : Answer s c r) : Effect s c r.state := by
  have hrun : s.halted = false ∨ s.halted = true := (Bool.eq_false_or_eq_true s.halted).symm
  cases h with
  | fetched =>
    rcases hrun with hrun | hrun
    · rw [fetch_running hrun]; exact .fetched hrun
    · rw [fetch_halted hrun]; exact .unchanged _
  | decoded =>
    rcases hrun with hrun | hrun
    · rw [decode_running hrun]; exact .decoded hrun
    · rw [decode_halted hrun]; exact .unchanged _
  | incremented =>
    rcases hrun with hrun | hrun
    · rw [incrementIAR_running hrun]; exact .incremented hrun
    · rw [incrementIAR_halted hrun]; exact .unchanged _
  | executed i running held => exact .executed i running held
  | stepped running => exact .stepped running
  | registerReset => exact .registerReset
  | fullReset => exact .fullReset
  | wrote v out write low high => exact .wrote v write low high
  | noneDecoded | rejected | readCell | readNoCell | notWritten => exact .unchanged _

/-- The inversion of the command port, for proofs about the state alone. -/
theorem runCommand_effect (h : runCommand c s = .next r) : Effect s c r.state :=
  (runCommand_cases h).effect

/-- The host writes are the two accessors and their text forms (20_memory.md R43, R44, R48). -/
theorem Command.WritesTo.cases {a : Int} (h : c.WritesTo a) :
    (∃ v, c = .writeMemory a v ∨ c = .loadInstruction a v) ∨
    ∃ text, c = .writeMemoryText a text ∨ c = .loadInstructionText a text := by
  cases c with
  | writeMemory b v => cases h; exact .inl ⟨v, .inl rfl⟩
  | loadInstruction b v => cases h; exact .inl ⟨v, .inr rfl⟩
  | writeMemoryText b text => cases h; exact .inr ⟨text, .inl rfl⟩
  | loadInstructionText b text => cases h; exact .inr ⟨text, .inr rfl⟩
  | fetch | decode | execute | incrementIAR | step | reset | readMemory => exact h.elim

/-- 40_cycle.md R82: a halted engine rejects the cycle commands and keeps its state (D6, log 5). -/
theorem runCommand_halted (hs : s.halted = true)
    (hc : c ∈ [Command.fetch, .decode, .execute, .incrementIAR, .step]) :
    runCommand c s = .next ⟨.halted, .nothing, s⟩ := by
  simp only [List.mem_cons, List.not_mem_nil, or_false] at hc
  rcases hc with rfl | rfl | rfl | rfl | rfl
  · exact congrArg _ (fetch_halted hs)
  · exact congrArg _ (decode_halted hs)
  · exact execute_halted hs
  · exact congrArg _ (incrementIAR_halted hs)
  · exact stepCycle_halted hs

namespace State

/-! ### Each element after an instruction (42_alu.md R106) -/

variable (s : State)

/-- A jump on a condition, element by element. -/
theorem jumpIf_fields (taken : Bool) (k : Addr) : s.jumpIf taken k =
    { s with iar := if taken then k else s.iar, jumped := if taken then true else s.jumped } := by
  cases taken <;> rfl

/-- A is written by LOAD_A and the ALU instructions only (10_state.md R21). -/
theorem after_regA (i : Instr) : (s.after i).regA = match i with
    | .loadA a => Memory.read s.mem a.toNat
    | .add => s.regA + s.regB
    | .sub => s.regA - s.regB
    | .addi imm => s.regA + imm.setWidth 8
    | _ => s.regA := by
  cases i with
  | loadA a => rw [after, load_a_eq]; rfl
  | loadB a => rw [after, load_b_eq]; rfl
  | add | addi => exact addResult_eq _ _
  | sub => exact subResult_eq _ _
  | jumpNeg k | jumpZero k => rw [after, jumpIf_fields]; rfl
  | nop | storeA | storeB | jump | unknown | halt => rfl

/-- B is written by LOAD_B only (10_state.md R22). -/
theorem after_regB (i : Instr) : (s.after i).regB = match i with
    | .loadB a => Memory.read s.mem a.toNat
    | _ => s.regB := by
  cases i with
  | loadA a => rw [after, load_a_eq]; rfl
  | loadB a => rw [after, load_b_eq]; rfl
  | jumpNeg k | jumpZero k => rw [after, jumpIf_fields]; rfl
  | nop | storeA | storeB | add | sub | jump | addi | unknown | halt => rfl

/-- Z is written from the result by the ALU instructions, and by the loads as the policy allows (10_state.md R27). -/
theorem after_flagZ (i : Instr) : (s.after i).flagZ = match i with
    | .add => decide ((s.after i).regA = 0#8)
    | .sub => decide ((s.after i).regA = 0#8)
    | .addi _ => decide ((s.after i).regA = 0#8)
    | .loadA _ => if s.config.loadFlagPolicy = .none then s.flagZ else decide ((s.after i).regA = 0#8)
    | .loadB _ => if s.config.loadFlagPolicy = .both then decide ((s.after i).regB = 0#8) else s.flagZ
    | _ => s.flagZ := by
  cases i with
  | loadA a => simp only [after, load_a_eq]; rfl
  | loadB a => simp only [after, load_b_eq]; rfl
  | jumpNeg k | jumpZero k => rw [after, jumpIf_fields]; rfl
  | nop | storeA | storeB | add | sub | jump | addi | unknown | halt => rfl

/-- N is written from bit 7 of the result by the ALU instructions, and by the loads as the policy allows
(10_state.md R28). -/
theorem after_flagN (i : Instr) : (s.after i).flagN = match i with
    | .add => (s.after i).regA.msb
    | .sub => (s.after i).regA.msb
    | .addi _ => (s.after i).regA.msb
    | .loadA _ => if s.config.loadFlagPolicy = .none then s.flagN else (s.after i).regA.msb
    | .loadB _ => if s.config.loadFlagPolicy = .both then (s.after i).regB.msb else s.flagN
    | _ => s.flagN := by
  cases i with
  | loadA a => simp only [after, load_a_eq, bit7_eq_msb]; rfl
  | loadB a => simp only [after, load_b_eq, bit7_eq_msb]; rfl
  | add | sub | addi => exact bit7_eq_msb _
  | jumpNeg k | jumpZero k => rw [after, jumpIf_fields]; rfl
  | nop | storeA | storeB | jump | unknown | halt => rfl

/-- The immediate of ADDI is 0 to 15 as a signed byte (30_encoding.md R61). -/
theorem toInt_immediate (imm : Nibble) : (immediate imm).toInt = imm.toNat := by
  revert imm; decide

/-- O is the overflow of this instruction: cleared at the execute entry and set by the ALU (10_state.md R29,
42_alu.md R104). -/
theorem after_flagO_iff (i : Instr) : (s.after i).flagO = true ↔ match i with
    | .add => s.regA.toInt + s.regB.toInt < -128 ∨ 127 < s.regA.toInt + s.regB.toInt
    | .sub => s.regA.toInt - s.regB.toInt < -128 ∨ 127 < s.regA.toInt - s.regB.toInt
    | .addi imm => 127 < s.regA.toInt + (imm.toNat : Int)
    | _ => False := by
  cases i with
  | add => simp only [after, aluAdd, writeAluResult_flagO, addResult_eq, addOverflow_iff]
  | sub => simp only [after, aluSub, writeAluResult_flagO, subResult_eq, subOverflow_iff]
  | addi imm =>
    have hlow : -128 ≤ s.regA.toInt := BitVec.le_toInt s.regA
    simp only [after, aluAdd, writeAluResult_flagO, addResult_eq, addOverflow_iff, toInt_immediate]
    omega
  | loadA a => simp [after, load_a_eq]
  | loadB a => simp [after, load_b_eq]
  | jumpNeg k | jumpZero k => simp [after, jumpIf_fields]
  | nop | storeA | storeB | jump | unknown | halt => simp [after]

/-- No instruction reads O: the execute entry clears it (40_cycle.md R76; log 20). -/
theorem after_setFlagO (i : Instr) (o : Bool) : (s.setFlagO o).after i = s.after i := by
  cases i <;> rfl

end State
end Sys2Proof.Machine
end

section
/-! The invariant (10_state.md R18, R32): it holds at power-on, every command keeps it, and a canonical memory is its
sixteen cells. -/

namespace Sys2Proof.Machine

variable {s t : State} {c : Command}

/-- The invariant speaks of the memory, the decoded instruction and the configuration only. -/
theorem inv_of_eq (h : Safety.Inv s) (hmem : t.mem = s.mem) (hdec : t.lastDecoded = s.lastDecoded)
    (hcfg : t.config = s.config) : Safety.Inv t := by
  rw [Safety.Inv, hmem, hdec, hcfg]; exact h

/-- With no decoded instruction the invariant is the canonical memory. -/
theorem inv_of_none (hmem : Memory.wf t.mem = true) (hdec : t.lastDecoded = none) : Safety.Inv t :=
  ⟨hmem, fun i hi => by rw [hdec] at hi; cases hi⟩

/-- An instruction keeps the invariant: it keeps the memory canonical and consumes the decoded instruction. -/
theorem inv_after (i : Instr) (h : Memory.wf s.mem = true) : Safety.Inv (s.after i) :=
  inv_of_none (s.after_mem_wf i h) (s.after_lastDecoded i)

/-- One instruction cycle keeps the invariant: the fetch and the increment write no cell. -/
theorem inv_cycle (h : Safety.Inv s) : Safety.Inv (incrementIAR (s.fetched.after s.current)).state :=
  inv_of_eq (inv_after (s := s.fetched) s.current h.1) (incrementIAR_mem _) (incrementIAR_lastDecoded _)
    (incrementIAR_config _)

/-- Every state a command leaves meets the invariant. -/
theorem Effect.inv (h : Effect s c t) (hs : Safety.Inv s) : Safety.Inv t := by
  cases h with
  | unchanged => exact hs
  | fetched | incremented => exact inv_of_eq hs rfl rfl rfl
  | decoded => exact ⟨hs.1, fun i hi => Option.some.inj hi ▸ decodeFields_wellFormed _ _ _⟩
  | executed i => exact inv_after i hs.1
  | stepped => exact inv_cycle hs
  | registerReset => exact inv_of_none hs.1 rfl
  | fullReset => exact inv_of_none rfl rfl
  | wrote v => exact ⟨Memory.wf_write _ v hs.1, hs.2⟩

/-- Settles O57: a halted engine stays, a running one runs one cycle. -/
theorem everyStepKeepsTheInvariant : Obligations.EveryStepKeepsTheInvariant := by
  intro s t hs h
  obtain ⟨-, rfl⟩ | ⟨-, rfl⟩ := step_cases h
  · exact hs
  · exact inv_cycle hs

/-- Settles O58, by the states a command can leave. -/
theorem everyCommandKeepsTheInvariant : Obligations.EveryCommandKeepsTheInvariant :=
  fun _ _ _ hs h => (runCommand_effect h).inv hs

/-- Settles O56: the memory is empty and nothing is decoded. -/
theorem powerOnMeetsTheInvariant : Obligations.PowerOnMeetsTheInvariant :=
  inv_of_none Memory.wf_nil rfl

namespace Memory

/-- Canonical memories that agree on every address below 16 are equal: of two first entries the lower one is an
address the other memory reads as 0. -/
theorem eq_of_read_eq {lo : Nat} {m m' : Memory} (hm : wfFrom lo m = true) (hm' : wfFrom lo m' = true)
    (h : ∀ a < 16, read m a = read m' a) : m = m' := by
  induction m generalizing lo m' with
  | nil =>
    cases m' with
    | nil => rfl
    | cons e' rest' =>
      obtain ⟨k', w'⟩ := e'
      obtain ⟨-, hk', hw', -⟩ := (wfFrom_cons k' w' rest').1 hm'
      exact absurd (by simpa [read] using (h k' hk').symm) hw'
  | cons e rest ih =>
    obtain ⟨k, w⟩ := e
    obtain ⟨hlo, hk, hw, hrest⟩ := (wfFrom_cons k w rest).1 hm
    cases m' with
    | nil => exact absurd (by simpa [read] using h k hk) hw
    | cons e' rest' =>
      obtain ⟨k', w'⟩ := e'
      obtain ⟨hlo', hk', hw', hrest'⟩ := (wfFrom_cons k' w' rest').1 hm'
      obtain hlt | rfl | hgt := Nat.lt_trichotomy k k'
      · have hzero : read ((k', w') :: rest') k = 0#8 :=
          read_below ((wfFrom_cons k' w' rest').2 ⟨le_refl k', hk', hw', hrest'⟩) hlt
        exact absurd (by simpa [read] using (h k hk).trans hzero) hw
      · have hhead : w = w' := by simpa [read] using h k hk
        have htail : ∀ a < 16, read rest a = read rest' a := by
          intro a ha
          by_cases hak : a < k + 1
          · rw [read_below hrest hak, read_below hrest' hak]
          · have hne : k ≠ a := by omega
            simpa [read, hne] using h a ha
        rw [hhead, ih hrest hrest' htail]
      · have hzero : read ((k, w) :: rest) k' = 0#8 :=
          read_below ((wfFrom_cons k w rest).2 ⟨le_refl k, hk, hw, hrest⟩) hgt
        exact absurd (by simpa [read] using (h k' hk').symm.trans hzero) hw'

end Memory

/-- Settles O59: every address below 16 is a 4-bit address. -/
theorem canonicalMemoryIsItsSixteenCells : Obligations.CanonicalMemoryIsItsSixteenCells := by
  intro m m' hm hm' h
  refine Memory.eq_of_read_eq hm hm' fun a ha => ?_
  simpa [Nat.mod_eq_of_lt ha] using h (BitVec.ofNat 4 a)

end Sys2Proof.Machine
end

section
/-! Commands and instructions that do not read an element: the same answer, and the same state but for that element,
whatever it held (10_state.md R21, R22, R26, R34, R38). -/

namespace Sys2Proof.Machine

variable {s : State} {c : Command} {r : CommandResult} {f : State → State}

/-- An answer with its state changed. -/
def CommandResult.mapState (r : CommandResult) (f : State → State) : CommandResult :=
  ⟨r.response, r.output, f r.state⟩

/-- The state change touches nothing that the accessors, the resets or the fetch read. -/
structure Unread (f : State → State) : Prop where
  halted : ∀ s, (f s).halted = s.halted
  iar : ∀ s, (f s).iar = s.iar
  mem : ∀ s, (f s).mem = s.mem
  config : ∀ s, (f s).config = s.config
  memWrite : ∀ s a v, (f s).memWrite a v = f (s.memWrite a v)

/-- The state change touches neither IR nor `last_decoded`, so the fetch and the decode do not see it. -/
structure UnreadByPhases (f : State → State) : Prop extends Unread f where
  irOp : ∀ s, (f s).irOp = s.irOp
  irOpr : ∀ s, (f s).irOpr = s.irOpr
  setIr : ∀ s op opr, (f s).setIr op opr = f (s.setIr op opr)
  setLastDecoded : ∀ s d, (f s).setLastDecoded d = f (s.setLastDecoded d)

/-- A change of IR. -/
theorem unread_setIr (op opr : Nibble) : Unread (·.setIr op opr) :=
  ⟨fun _ => rfl, fun _ => rfl, fun _ => rfl, fun _ => rfl, fun _ _ _ => rfl⟩

/-- A change of the jump marker. -/
theorem unreadByPhases_setJumped (j : Bool) : UnreadByPhases (·.setJumped j) :=
  ⟨⟨fun _ => rfl, fun _ => rfl, fun _ => rfl, fun _ => rfl, fun _ _ _ => rfl⟩,
    fun _ => rfl, fun _ => rfl, fun _ _ _ => rfl, fun _ _ => rfl⟩

/-- A change of A or B. -/
theorem unreadByPhases_writeReg (q : Reg) (v : Byte) : UnreadByPhases (·.writeReg q v) := by
  cases q <;>
    exact ⟨⟨fun _ => rfl, fun _ => rfl, fun _ => rfl, fun _ => rfl, fun _ _ _ => rfl⟩,
      fun _ => rfl, fun _ => rfl, fun _ _ _ => rfl, fun _ _ => rfl⟩

namespace Unread

theorem memRead (hf : Unread f) (s : State) (a : Addr) : (f s).memRead a = s.memRead a := by
  rw [State.memRead, hf.mem, State.memRead]

theorem readMemory (hf : Unread f) (a : Int) (s : State) :
    Machine.readMemory a (f s) = (Machine.readMemory a s).mapState f := by
  unfold Machine.readMemory
  split_ifs
  · rw [hf.memRead]; rfl
  · rfl

theorem writeCell (hf : Unread f) (a v : Int) (out : Output) (s : State) :
    Machine.writeCell a v out (f s) = (Machine.writeCell a v out s).mapState f := by
  unfold Machine.writeCell
  split_ifs
  · rw [hf.memWrite]; rfl
  · rfl
  · rfl

theorem loadInstruction (hf : Unread f) (a v : Int) (s : State) :
    Machine.loadInstruction a v (f s) = (Machine.loadInstruction a v s).mapState f := by
  rw [Machine.loadInstruction, hf.config, hf.writeCell, Machine.loadInstruction]

theorem writeMemoryText (hf : Unread f) (a : Int) (text : List Char) (s : State) :
    Machine.writeMemoryText a text (f s) = (Machine.writeMemoryText a text s).mapState f := by
  unfold Machine.writeMemoryText
  split
  · exact hf.writeCell a _ _ s
  · split_ifs <;> rfl

theorem loadInstructionText (hf : Unread f) (a : Int) (text : List Char) (s : State) :
    Machine.loadInstructionText a text (f s) = (Machine.loadInstructionText a text s).mapState f := by
  unfold Machine.loadInstructionText
  split
  · exact hf.loadInstruction a _ s
  · split_ifs <;> rfl

/-- A reset keeps only the memory and the configuration. -/
theorem reset (hf : Unread f) (full : Bool) (s : State) :
    runCommand (.reset full) (f s) = runCommand (.reset full) s := by
  cases full <;>
    simp only [runCommand, State.fullReset, State.registerReset, hf.mem, hf.config]

/-- The host's memory accessors do the same after the change. -/
theorem accessor (hf : Unread f) (h : runCommand c s = .next r) (hfetch : c ≠ .fetch) (hdecode : c ≠ .decode)
    (hexecute : c ≠ .execute) (hincrement : c ≠ .incrementIAR) (hstep : c ≠ .step)
    (hreset : ∀ full, c ≠ .reset full) : runCommand c (f s) = .next (r.mapState f) := by
  cases c with
  | readMemory a => cases h; exact congrArg _ (hf.readMemory a s)
  | writeMemory a v => cases h; exact congrArg _ (hf.writeCell a v _ s)
  | loadInstruction a v => cases h; exact congrArg _ (hf.loadInstruction a v s)
  | writeMemoryText a text => cases h; exact congrArg _ (hf.writeMemoryText a text s)
  | loadInstructionText a text => cases h; exact congrArg _ (hf.loadInstructionText a text s)
  | reset full => exact absurd rfl (hreset full)
  | fetch | decode | execute | incrementIAR | step => contradiction

end Unread

namespace UnreadByPhases

theorem fetch (hf : UnreadByPhases f) (s : State) : Machine.fetch (f s) = (Machine.fetch s).mapState f := by
  unfold Machine.fetch
  rw [hf.halted, hf.iar, hf.memRead, hf.setIr]
  split_ifs <;> rfl

theorem decode (hf : UnreadByPhases f) (s : State) : Machine.decode (f s) = (Machine.decode s).mapState f := by
  unfold Machine.decode
  rw [hf.halted, hf.config, hf.irOp, hf.irOpr, hf.setLastDecoded]
  split_ifs <;> rfl

/-- Every command but `execute`, `incrementIAR`, `step` and the resets does the same after the change. -/
theorem runCommand (hf : UnreadByPhases f) (h : Machine.runCommand c s = .next r) (hexecute : c ≠ .execute)
    (hincrement : c ≠ .incrementIAR) (hstep : c ≠ .step) (hreset : ∀ full, c ≠ .reset full) :
    Machine.runCommand c (f s) = .next (r.mapState f) := by
  cases c with
  | fetch => cases h; exact congrArg _ (hf.fetch s)
  | decode => cases h; exact congrArg _ (hf.decode s)
  | execute | incrementIAR | step => contradiction
  | reset full => exact absurd rfl (hreset full)
  | readMemory | writeMemory | loadInstruction | writeMemoryText | loadInstructionText =>
    exact hf.accessor h nofun nofun nofun nofun nofun nofun

end UnreadByPhases

/-! ### A and B (10_state.md R21, R22) -/

/-- The instruction takes the register as an operand: the stores their own, ADD and SUB both, ADDI A. -/
def readsRegister : Instr → Reg → Bool
  | .storeA _, .a => true
  | .storeB _, .b => true
  | .add, _ => true
  | .sub, _ => true
  | .addi _, .a => true
  | _, _ => false

/-- An instruction that does not read a register does the same whatever the register held. -/
theorem State.after_writeReg {i : Instr} {q : Reg} (hi : readsRegister i q = false) (s : State) (v : Byte) :
    ∃ w, (s.writeReg q v).after i = (s.after i).writeReg q w := by
  refine ⟨((s.writeReg q v).after i).readReg q, ?_⟩
  cases i with
  | loadA a => simp only [after, load_a_eq]; cases q <;> rfl
  | loadB a => simp only [after, load_b_eq]; cases q <;> rfl
  | jumpNeg k | jumpZero k => simp only [after, jumpIf_fields]; cases q <;> rfl
  | nop | jump | unknown | halt => cases q <;> rfl
  | add | sub => cases hi
  | storeA | addi =>
    cases q with
    | a => cases hi
    | b => rfl
  | storeB =>
    cases q with
    | a => rfl
    | b => cases hi

/-- The increment does the same whatever A and B held. -/
theorem incrementIAR_writeReg (q : Reg) (v : Byte) (s : State) :
    incrementIAR (s.writeReg q v) = (incrementIAR s).mapState (·.writeReg q v) := by
  have hq : (s.writeReg q v).halted = s.halted := (unreadByPhases_writeReg q v).halted s
  cases hs : s.halted with
  | true => rw [incrementIAR_halted (hq.trans hs), incrementIAR_halted hs]; rfl
  | false => rw [incrementIAR_running (hq.trans hs), incrementIAR_running hs]; cases q <;> rfl

/-- The commands that execute nothing do the same whatever A and B held; a reset also clears the change. -/
theorem runCommand_writeReg (h : runCommand c s = .next r) (hexecute : c ≠ .execute) (hstep : c ≠ .step) (q : Reg)
    (v : Byte) : ∃ w, runCommand c (s.writeReg q v) = .next (r.mapState (·.writeReg q w)) := by
  have hf := unreadByPhases_writeReg q v
  cases c with
  | incrementIAR => cases h; exact ⟨v, congrArg _ (incrementIAR_writeReg q v s)⟩
  | reset full => exact ⟨r.state.readReg q, by rw [hf.reset, h]; cases q <;> rfl⟩
  | execute | step => contradiction
  | fetch | decode | readMemory | writeMemory | loadInstruction | writeMemoryText | loadInstructionText =>
    exact ⟨v, hf.runCommand h nofun nofun nofun nofun⟩

/-! ### The jump marker (10_state.md R34) -/

/-- No instruction reads the marker. -/
theorem State.after_setJumped (s : State) (i : Instr) (j : Bool) :
    ∃ w, (s.setJumped j).after i = (s.after i).setJumped w := by
  refine ⟨((s.setJumped j).after i).jumped, ?_⟩
  cases i with
  | loadA a => simp only [after, load_a_eq]; rfl
  | loadB a => simp only [after, load_b_eq]; rfl
  | jumpNeg k | jumpZero k => simp only [after, jumpIf_fields]; rfl
  | nop | storeA | storeB | add | sub | jump | addi | unknown | halt => rfl

/-- `execute()` does the same whatever the marker was. -/
theorem execute_setJumped (h : execute s = .next r) (j : Bool) :
    ∃ w, execute (s.setJumped j) = .next (r.mapState (·.setJumped w)) := by
  cases runCommand_cases (c := .execute) h with
  | executed i running held =>
    obtain ⟨w, hw⟩ := s.after_setJumped i j
    exact ⟨w, by rw [execute_some (s := s.setJumped j) running held, hw]; rfl⟩
  | noneDecoded running absent => exact ⟨j, execute_none (s := s.setJumped j) running absent⟩
  | rejected stopped => exact ⟨j, execute_halted (s := s.setJumped j) stopped⟩
  | wrote _ _ write | notWritten write => exact write.elim

/-- Every command but the increment, and `step()` which ends in it, does the same whatever the marker was. -/
theorem runCommand_setJumped (h : runCommand c s = .next r) (hincrement : c ≠ .incrementIAR) (hstep : c ≠ .step)
    (j : Bool) : ∃ w, runCommand c (s.setJumped j) = .next (r.mapState (·.setJumped w)) := by
  have hf := unreadByPhases_setJumped j
  cases c with
  | execute => exact execute_setJumped h j
  | reset full => exact ⟨r.state.jumped, by rw [hf.reset, h]; rfl⟩
  | incrementIAR | step => contradiction
  | fetch | decode | readMemory | writeMemory | loadInstruction | writeMemoryText | loadInstructionText =>
    exact ⟨j, hf.runCommand h nofun nofun nofun nofun⟩

/-! ### IR (10_state.md R26, R38) -/

/-- No instruction reads IR. -/
theorem State.after_setIr (s : State) (i : Instr) (op opr : Nibble) :
    (s.setIr op opr).after i = (s.after i).setIr op opr := by
  cases i with
  | loadA a => simp only [after, load_a_eq]; rfl
  | loadB a => simp only [after, load_b_eq]; rfl
  | jumpNeg k | jumpZero k => simp only [after, jumpIf_fields]; rfl
  | nop | storeA | storeB | add | sub | jump | addi | unknown | halt => rfl

/-- `execute()` reads `last_decoded`, never IR (40_cycle.md R75). -/
theorem execute_setIr (h : execute s = .next r) (op opr : Nibble) :
    execute (s.setIr op opr) = .next (r.mapState (·.setIr op opr)) := by
  cases runCommand_cases (c := .execute) h with
  | executed i running held => rw [execute_some (s := s.setIr op opr) running held, s.after_setIr]; rfl
  | noneDecoded running absent => exact execute_none (s := s.setIr op opr) running absent
  | rejected stopped => exact execute_halted (s := s.setIr op opr) stopped
  | wrote _ _ write | notWritten write => exact write.elim

/-- The increment does the same whatever IR held. -/
theorem incrementIAR_setIr (op opr : Nibble) (s : State) :
    incrementIAR (s.setIr op opr) = (incrementIAR s).mapState (·.setIr op opr) := by
  cases hs : s.halted with
  | true => rw [incrementIAR_halted hs, incrementIAR_halted (s := s.setIr op opr) hs]; rfl
  | false => rw [incrementIAR_running hs, incrementIAR_running (s := s.setIr op opr) hs]; rfl

/-- The fetch overwrites IR (40_cycle.md R72). -/
theorem fetch_setIr (op opr : Nibble) (hs : s.halted = false) : fetch (s.setIr op opr) = fetch s := by
  rw [fetch_running hs, fetch_running (s := s.setIr op opr) hs]; rfl

/-- A cycle begins with a fetch and a decode, so it does not see an old IR, `last_decoded` or O. -/
theorem stepCycle_setStale (op opr : Nibble) (d : Option Instr) (o : Bool) (hs : s.halted = false) :
    stepCycle (((s.setIr op opr).setLastDecoded d).setFlagO o) = stepCycle s := by
  rw [stepCycle_running hs, stepCycle_running (s := ((s.setIr op opr).setLastDecoded d).setFlagO o) hs,
    ← s.fetched.after_setFlagO s.current o]
  rfl

/-- Every command but `decode` does the same whatever IR held; a fetch, a cycle and a reset also overwrite it. -/
theorem runCommand_setIr (h : runCommand c s = .next r) (hdecode : c ≠ .decode) (op opr : Nibble) :
    ∃ op' opr', runCommand c (s.setIr op opr) = .next (r.mapState (·.setIr op' opr')) := by
  have hf := unread_setIr op opr
  have hsame (heq : runCommand c (s.setIr op opr) = runCommand c s) :
      ∃ op' opr', runCommand c (s.setIr op opr) = .next (r.mapState (·.setIr op' opr')) :=
    ⟨r.state.irOp, r.state.irOpr, heq.trans h⟩
  have hrun : s.halted = false ∨ s.halted = true := (Bool.eq_false_or_eq_true s.halted).symm
  cases c with
  | fetch =>
    rcases hrun with hrun | hrun
    · exact hsame (congrArg Host.Outcome.next (fetch_setIr op opr hrun))
    · cases h
      refine ⟨op, opr, congrArg Host.Outcome.next ?_⟩
      rw [fetch_halted hrun, fetch_halted (s := s.setIr op opr) hrun]
      rfl
  | decode => contradiction
  | execute => exact ⟨op, opr, execute_setIr h op opr⟩
  | incrementIAR => cases h; exact ⟨op, opr, congrArg _ (incrementIAR_setIr op opr s)⟩
  | step =>
    rcases hrun with hrun | hrun
    · exact hsame (stepCycle_setStale op opr s.lastDecoded s.flagO hrun)
    · cases (stepCycle_halted hrun).symm.trans h
      exact ⟨op, opr, stepCycle_halted (s := s.setIr op opr) hrun⟩
  | reset full => exact hsame (hf.reset full s)
  | readMemory | writeMemory | loadInstruction | writeMemoryText | loadInstructionText =>
    exact ⟨op, opr, hf.accessor h nofun nofun nofun nofun nofun nofun⟩

/-- Settles O44: the step is the cycle's state. -/
theorem stepIgnoresStaleInstructionAndOverflow : Obligations.StepIgnoresStaleInstructionAndOverflow := by
  intro s op opr d o hs
  have hcycle : stepCycle { s with irOp := op, irOpr := opr, lastDecoded := d, flagO := o } = stepCycle s :=
    stepCycle_setStale op opr d o hs
  rw [step, hcycle, step]

end Sys2Proof.Machine
end

section
/-! The record of an instruction (10_state.md R32). -/

namespace Sys2Proof

/-- An instruction is what its mnemonic makes of its opcode and its operand; without an operand any would do. -/
theorem assemble_parts (i : Instr) : assemble i.mnemonic i.opbits (i.value.getD 0#4) = i := by
  cases i <;> rfl

/-- Settles O5: the record holds the three parts the instruction is assembled from. -/
theorem recordDeterminesTheInstruction : Obligations.RecordDeterminesTheInstruction := by
  intro cfg i j _ _ h
  obtain ⟨hm, -, hop, hv⟩ := DecodedRecord.mk.inj h
  rw [← assemble_parts i, hm, hop, hv, assemble_parts j]

end Sys2Proof
end

section
/-! The writers and the readers of each element of the state (10_state.md R20 to R34). -/

namespace Sys2Proof.Machine

variable {s t : State} {c : Command} {i : Instr}

/-! ### The registers and the flags -/

/-- A, B, Z and N hold what they held. -/
structure KeepsRegistersAndFlags (s t : State) : Prop where
  regA : t.regA = s.regA
  regB : t.regB = s.regB
  flagZ : t.flagZ = s.flagZ
  flagN : t.flagN = s.flagN

/-- The commands that execute nothing keep the registers and the flags, but for a reset. -/
theorem Effect.keepsRegistersAndFlags (h : Effect s c t) (hexecute : c ≠ .execute) (hstep : c ≠ .step)
    (hreset : ∀ full, c ≠ .reset full) : KeepsRegistersAndFlags s t := by
  cases h with
  | executed | stepped => contradiction
  | registerReset | fullReset => exact absurd rfl (hreset _)
  | unchanged | fetched | decoded | incremented | wrote => exact ⟨rfl, rfl, rfl, rfl⟩

/-- The instructions that do not read A. -/
theorem readsRegister_a (hstore : ∀ a, i ≠ .storeA a) (hadd : i ≠ .add) (hsub : i ≠ .sub)
    (haddi : ∀ imm, i ≠ .addi imm) : readsRegister i .a = false := by
  cases i with
  | storeA a => exact absurd rfl (hstore a)
  | addi imm => exact absurd rfl (haddi imm)
  | add | sub => contradiction
  | nop | loadA | loadB | storeB | jump | jumpNeg | jumpZero | unknown | halt => rfl

/-- The instructions that do not read B. -/
theorem readsRegister_b (hstore : ∀ a, i ≠ .storeB a) (hadd : i ≠ .add) (hsub : i ≠ .sub) :
    readsRegister i .b = false := by
  cases i with
  | storeB a => exact absurd rfl (hstore a)
  | add | sub => contradiction
  | nop | loadA | loadB | storeA | jump | jumpNeg | jumpZero | addi | unknown | halt => rfl

/-- Settles O21, from A after an instruction and the commands and instructions that do not read it. -/
theorem accumulatorHasOnlyItsReadersAndWriters : Obligations.AccumulatorHasOnlyItsReadersAndWriters := by
  refine ⟨fun i s t h => exec_next_iff.1 h ▸ s.after_regA i, fun _ => ⟨rfl, rfl⟩, ?_, ?_, ?_⟩
  · intro s t a hwf h
    cases exec_next_iff.1 h
    exact Memory.read_write_same s.regA hwf
  · intro i s t v h hstore hadd hsub haddi
    cases exec_next_iff.1 h
    obtain ⟨w, hw⟩ := State.after_writeReg (readsRegister_a hstore hadd hsub haddi) s v
    exact ⟨_, exec_next_iff.2 hw, rfl⟩
  · intro c s r v h hexecute hstep
    obtain ⟨w, hw⟩ := runCommand_writeReg h hexecute hstep .a v
    exact ⟨fun hreset => ((runCommand_effect h).keepsRegistersAndFlags hexecute hstep hreset).regA,
      _, hw, rfl, rfl, rfl⟩

/-- Settles O22 as O21, for B. -/
theorem registerBHasOnlyItsReadersAndWriters : Obligations.RegisterBHasOnlyItsReadersAndWriters := by
  refine ⟨fun i s t h => exec_next_iff.1 h ▸ s.after_regB i, fun _ => ⟨rfl, rfl⟩, ?_,
    fun s t h => exec_next_iff.1 h ▸ s.after_regA .add, fun s t h => exec_next_iff.1 h ▸ s.after_regA .sub, ?_, ?_⟩
  · intro s t a hwf h
    cases exec_next_iff.1 h
    exact Memory.read_write_same s.regB hwf
  · intro i s t v h hstore hadd hsub
    cases exec_next_iff.1 h
    obtain ⟨w, hw⟩ := State.after_writeReg (readsRegister_b hstore hadd hsub) s v
    exact ⟨_, exec_next_iff.2 hw, rfl⟩
  · intro c s r v h hexecute hstep
    obtain ⟨w, hw⟩ := runCommand_writeReg h hexecute hstep .b v
    exact ⟨fun hreset => ((runCommand_effect h).keepsRegistersAndFlags hexecute hstep hreset).regB,
      _, hw, rfl, rfl, rfl⟩

/-- Settles O23, from Z and the marker after an instruction and the frame of the other commands. -/
theorem zeroFlagHasOnlyItsWriters : Obligations.ZeroFlagHasOnlyItsWriters := by
  refine ⟨fun i s t h => exec_next_iff.1 h ▸ s.after_flagZ i, ?_,
    fun c s r h hexecute hstep hreset =>
      ((runCommand_effect h).keepsRegistersAndFlags hexecute hstep hreset).flagZ,
    fun _ => ⟨rfl, rfl⟩⟩
  intro s t k hj h
  cases exec_next_iff.1 h
  simp [State.after_jumped, hj]

/-- Settles O24 as O23, for N. -/
theorem negativeFlagHasOnlyItsWriters : Obligations.NegativeFlagHasOnlyItsWriters := by
  refine ⟨fun i s t h => exec_next_iff.1 h ▸ s.after_flagN i, ?_,
    fun c s r h hexecute hstep hreset =>
      ((runCommand_effect h).keepsRegistersAndFlags hexecute hstep hreset).flagN,
    fun _ => ⟨rfl, rfl⟩⟩
  intro s t k hj h
  cases exec_next_iff.1 h
  simp [State.after_jumped, hj]

/-- Settles O25, from the sign rules and the clearing of O at the execute entry. -/
theorem overflowFlagLastsOneExecute : Obligations.OverflowFlagLastsOneExecute := by
  refine ⟨fun i s t h => exec_next_iff.1 h ▸ s.after_flagO_iff i, fun i s o => ?_, fun _ => ⟨rfl, rfl⟩⟩
  rw [exec_eq, exec_eq]
  exact congrArg Host.Outcome.next (s.after_setFlagO i o)

/-! ### IR -/

/-- Bits 7:4 as a number (30_encoding.md R59). -/
theorem toNat_opField (b : Byte) : (opField b).toNat = b.toNat / 16 := by
  have hb := b.isLt
  simp only [opField, BitVec.extractLsb'_toNat, Nat.shiftRight_eq_div_pow]
  omega

/-- Bits 3:0 as a number (30_encoding.md R59). -/
theorem toNat_oprField (b : Byte) : (oprField b).toNat = b.toNat % 16 := by
  simp [oprField, BitVec.extractLsb'_toNat]

/-- Only fetch, step and a reset write IR (10_state.md R26). -/
theorem Effect.keepsIr (h : Effect s c t) (hfetch : c ≠ .fetch) (hstep : c ≠ .step)
    (hreset : ∀ full, c ≠ .reset full) : t.irOp = s.irOp ∧ t.irOpr = s.irOpr := by
  cases h with
  | fetched | stepped => contradiction
  | registerReset | fullReset => exact absurd rfl (hreset _)
  | executed i => exact ⟨s.after_irOp i, s.after_irOpr i⟩
  | unchanged | decoded | incremented | wrote => exact ⟨rfl, rfl⟩

/-- Settles O26, from the frame of IR and the commands that do not read it. -/
theorem instructionRegisterIsWrittenByFetchOnly : Obligations.InstructionRegisterIsWrittenByFetchOnly := by
  refine ⟨?_, fun c s r h => (runCommand_effect h).keepsIr, ?_, ?_⟩
  · intro s hs
    rw [fetch_running hs]
    exact ⟨toNat_opField _, toNat_oprField _⟩
  · intro full s r h
    cases full <;> cases h <;> exact ⟨rfl, rfl⟩
  · intro c s r op opr h hdecode
    obtain ⟨op', opr', hw⟩ := runCommand_setIr h hdecode op opr
    exact ⟨_, hw, rfl, rfl, rfl⟩

/-! ### IAR and the jump marker -/

/-- The instruction is a jump to `k`, and its condition holds (43_control.md R107 to R109). -/
def State.TakesJump (s : State) (i : Instr) (k : Addr) : Prop :=
  i = .jump k ∨ (s.flagN = true ∧ i = .jumpNeg k) ∨ (s.flagZ = true ∧ i = .jumpZero k)

/-- An instruction is a taken jump, or it keeps IAR and the marker. -/
theorem State.after_jump_cases (s : State) (i : Instr) :
    s.TakesJump i (s.after i).iar ∨ ((s.after i).iar = s.iar ∧ (s.after i).jumped = s.jumped) := by
  rw [after_iar, after_jumped]
  cases i with
  | jump k => exact .inl (.inl rfl)
  | jumpNeg k =>
    cases hn : s.flagN with
    | true => exact .inl (.inr (.inl ⟨hn, rfl⟩))
    | false => exact .inr ⟨rfl, rfl⟩
  | jumpZero k =>
    cases hz : s.flagZ with
    | true => exact .inl (.inr (.inr ⟨hz, rfl⟩))
    | false => exact .inr ⟨rfl, rfl⟩
  | nop | loadA | loadB | storeA | storeB | add | sub | addi | unknown | halt => exact .inr ⟨rfl, rfl⟩

/-- A taken jump that was decoded, as the decoded instruction. -/
theorem State.TakesJump.decoded {k : Addr} (h : s.TakesJump i k) (held : s.lastDecoded = some i) :
    s.lastDecoded = some (.jump k) ∨ (s.flagN = true ∧ s.lastDecoded = some (.jumpNeg k)) ∨
      (s.flagZ = true ∧ s.lastDecoded = some (.jumpZero k)) := by
  obtain rfl | ⟨hn, rfl⟩ | ⟨hz, rfl⟩ := h
  · exact .inl held
  · exact .inr (.inl ⟨hn, held⟩)
  · exact .inr (.inr ⟨hz, held⟩)

/-- Only HALT and UNKNOWN halt a running engine (10_state.md R33). -/
theorem State.halts_of_after_halted (running : s.halted = false) (h : (s.after i).halted = true) :
    i = .halt ∨ ∃ op, i = .unknown op := by
  rw [after_halted] at h
  cases i with
  | halt => exact .inl rfl
  | unknown op => exact .inr ⟨op, rfl⟩
  | nop | loadA | loadB | storeA | storeB | add | sub | jump | jumpNeg | jumpZero | addi =>
    exact absurd h (by simp [running])

/-- A cycle marks no jump: the increment clears the marker, and an instruction that halts takes no jump. -/
theorem cycle_jumped (running : s.halted = false) (hj : s.jumped = false) :
    (incrementIAR (s.fetched.after s.current)).state.jumped = false := by
  cases hh : (s.fetched.after s.current).halted with
  | false => rw [incrementIAR_running hh]
  | true =>
    rw [incrementIAR_halted hh, State.after_jumped]
    obtain hi | ⟨op, hi⟩ := State.halts_of_after_halted (s := s.fetched) running hh
    · rw [hi]; exact hj
    · rw [hi]; exact hj

/-- Settles O27, by the states a command can leave. -/
theorem instructionAddressHasOnlyItsWriters : Obligations.InstructionAddressHasOnlyItsWriters := by
  intro c s r h hne
  have heffect := runCommand_effect h
  generalize r.state = t at heffect hne ⊢
  cases heffect with
  | incremented => exact .inl rfl
  | stepped => exact .inr (.inl rfl)
  | registerReset | fullReset => exact .inr (.inr (.inl ⟨_, rfl⟩))
  | executed i running held =>
    obtain htaken | ⟨hiar, -⟩ := s.after_jump_cases i
    · exact .inr (.inr (.inr ⟨rfl, htaken.decoded held⟩))
    · exact absurd hiar hne
  | unchanged | fetched | decoded | wrote => exact absurd rfl hne

/-- Only the execute of a taken jump sets the marker (10_state.md R34). -/
theorem Effect.setsJumped (h : Effect s c t) (hs : s.jumped = false) (ht : t.jumped = true) :
    c = .execute ∧ ∃ i k, s.lastDecoded = some i ∧ s.TakesJump i k := by
  have hne : t.jumped ≠ s.jumped := by simp [hs, ht]
  cases h with
  | executed i running held =>
    obtain htaken | ⟨-, hjumped⟩ := s.after_jump_cases i
    · exact ⟨rfl, i, _, held, htaken⟩
    · exact absurd hjumped hne
  | stepped running => exact absurd ((cycle_jumped running hs).trans hs.symm) hne
  | incremented | registerReset | fullReset => cases ht
  | unchanged | fetched | decoded | wrote => exact absurd rfl hne

/-- Settles O29, from the setters of the marker and the commands that do not read it. -/
theorem jumpMarkerIsSetByTakenJumpsAndClearedByIncrement :
    Obligations.JumpMarkerIsSetByTakenJumpsAndClearedByIncrement := by
  refine ⟨?_, fun s hs => by rw [incrementIAR_running hs], ?_, fun _ => ⟨rfl, rfl⟩⟩
  · intro c s r h hs hr
    obtain ⟨hc, i, k, held, htaken⟩ := (runCommand_effect h).setsJumped hs hr
    exact ⟨hc, k, htaken.decoded held⟩
  · intro c s r j h hincrement hstep
    obtain ⟨w, hw⟩ := runCommand_setJumped h hincrement hstep j
    exact ⟨_, hw, rfl, rfl, rfl⟩

/-! ### The halt -/

/-- Only the execute of HALT or UNKNOWN sets `halted` (10_state.md R33). -/
theorem Effect.setsHalted (h : Effect s c t) (hs : s.halted = false) (ht : t.halted = true) :
    ∃ i, (i = .halt ∨ ∃ op, i = .unknown op) ∧
      (c = .execute ∧ s.lastDecoded = some i ∨ c = .step ∧ s.current = i) := by
  have hne : t.halted ≠ s.halted := by simp [hs, ht]
  cases h with
  | executed i running held => exact ⟨i, State.halts_of_after_halted running ht, .inl ⟨rfl, held⟩⟩
  | stepped running =>
    rw [incrementIAR_halted_eq] at ht
    exact ⟨_, State.halts_of_after_halted (s := s.fetched) running ht, .inr ⟨rfl, rfl⟩⟩
  | registerReset | fullReset => cases ht
  | unchanged | fetched | decoded | incremented | wrote => exact absurd rfl hne

/-- Only a reset clears `halted` (10_state.md R33). -/
theorem Effect.clearsHalted (h : Effect s c t) (hs : s.halted = true) (ht : t.halted = false) :
    ∃ full, c = .reset full := by
  cases h with
  | registerReset | fullReset => exact ⟨_, rfl⟩
  | fetched running | decoded running | executed _ running | incremented running | stepped running =>
    cases hs.symm.trans running
  | unchanged | wrote => cases hs.symm.trans ht

/-- Settles O28, by the states a command can leave, before and after the halt. -/
theorem haltedIsSetByHaltAndClearedByReset : Obligations.HaltedIsSetByHaltAndClearedByReset := by
  refine ⟨fun c s r h => (runCommand_effect h).setsHalted, fun c s r h => (runCommand_effect h).clearsHalted,
    fun _ => ⟨rfl, rfl⟩, ?_⟩
  intro c s r hs hc h
  cases (runCommand_halted hs hc).symm.trans h
  rfl

/-! ### The cells and the configuration -/

/-- A write changes no cell but its own. -/
theorem Memory.eq_of_read_write_ne {m : Memory} {a x : Nat} {v : Byte} (h : read (write m a v) x ≠ read m x) :
    a = x := by
  by_contra hne
  exact h (read_write_other m v (Ne.symm hne))

/-- An instruction that changes a cell is a store to it (10_state.md R20). -/
theorem State.after_writes_cell {x : Nat} (h : Memory.read (s.after i).mem x ≠ Memory.read s.mem x) :
    ∃ a : Addr, a.toNat = x ∧ (i = .storeA a ∨ i = .storeB a) := by
  rw [after_mem] at h
  cases i with
  | storeA a => exact ⟨a, Memory.eq_of_read_write_ne h, .inl rfl⟩
  | storeB a => exact ⟨a, Memory.eq_of_read_write_ne h, .inr rfl⟩
  | nop | loadA | loadB | add | sub | jump | jumpNeg | jumpZero | addi | unknown | halt => exact absurd rfl h

/-- An address of the host in range is the number of its cell (20_memory.md R42). -/
theorem toNat_ofInt_addr {a : Int} (low : 0 ≤ a) (high : a ≤ 15) : ((BitVec.ofInt 4 a).toNat : Int) = a := by
  rw [BitVec.toNat_ofInt]
  omega

/-- What changes a cell, by the command and the cell it names (10_state.md R20). -/
theorem Effect.writes_cell {x : Nat} (h : Effect s c t) (hne : Memory.read t.mem x ≠ Memory.read s.mem x) :
    c = .reset true ∨
    (∃ a : Addr, a.toNat = x ∧ c = .execute ∧
      (s.lastDecoded = some (.storeA a) ∨ s.lastDecoded = some (.storeB a))) ∨
    (∃ a : Addr, a.toNat = x ∧ c = .step ∧ (s.current = .storeA a ∨ s.current = .storeB a)) ∨
    c.WritesTo x := by
  cases h with
  | fullReset => exact .inl rfl
  | executed i running held =>
    obtain ⟨a, ha, hi⟩ := State.after_writes_cell hne
    exact .inr (.inl ⟨a, ha, rfl, by simpa [held] using hi⟩)
  | stepped =>
    rw [incrementIAR_mem] at hne
    obtain ⟨a, ha, hi⟩ := State.after_writes_cell (s := s.fetched) hne
    exact .inr (.inr (.inl ⟨a, ha, rfl, hi⟩))
  | wrote v write low high =>
    have hx := Memory.eq_of_read_write_ne hne
    rw [← toNat_ofInt_addr low high, hx] at write
    exact .inr (.inr (.inr write))
  | unchanged | fetched | decoded | incremented | registerReset => exact absurd rfl hne

/-- Settles O30, by the writers of a cell. -/
theorem cellsChangeOnlyThroughStoresAndHostWrites : Obligations.CellsChangeOnlyThroughStoresAndHostWrites := by
  refine ⟨fun _ => rfl, fun _ _ => ⟨rfl, rfl⟩, fun c s r x h hne => ?_⟩
  obtain hreset | hexecute | hstep | hwrite := (runCommand_effect h).writes_cell hne
  · exact .inl hreset
  · exact .inr (.inl hexecute)
  · exact .inr (.inr (.inl hstep))
  · exact .inr (.inr (.inr hwrite.cases))

/-- No command writes the configuration (10_state.md R17). -/
theorem Effect.config (h : Effect s c t) : t.config = s.config := by
  cases h with
  | executed i => exact s.after_config i
  | stepped => exact (incrementIAR_config _).trans (s.fetched.after_config s.current)
  | unchanged | fetched | decoded | incremented | registerReset | fullReset | wrote => rfl

/-- Settles O31, by the states a command can leave. -/
theorem configurationNeverChanges : Obligations.ConfigurationNeverChanges :=
  fun _ _ _ h => (runCommand_effect h).config

end Sys2Proof.Machine
end

section
/-! The host's memory accessors (20_memory.md R42 to R48), what each answers said once, and what a fetch sees of host
writes and stores (R54, R57). -/

namespace Sys2Proof.Machine

variable {s t : State} {a v : Int}

/-! ### The arguments -/

/-- A host address in range names its cell (20_memory.md R42). -/
theorem ofInt_addr_toNat (ha : 0 ≤ a ∧ a ≤ 15) : (BitVec.ofInt 4 a).toNat = a.toNat := by
  have h := toNat_ofInt_addr ha.1 ha.2
  omega

/-! ### What each accessor answers -/

theorem readMemory_inside (ha : 0 ≤ a ∧ a ≤ 15) (s : State) :
    readMemory a s = ⟨.ok, .byte (Memory.read s.mem a.toNat), s⟩ := by
  rw [readMemory, if_pos ha, State.memRead, ofInt_addr_toNat ha]

theorem readMemory_outside (ha : ¬ (0 ≤ a ∧ a ≤ 15)) (s : State) :
    readMemory a s = ⟨.invalidAddress, .nothing, s⟩ :=
  if_neg ha

theorem writeCell_good (ha : 0 ≤ a ∧ a ≤ 15) (hv : 0 ≤ v ∧ v ≤ 255) (out : Output) (s : State) :
    writeCell a v out s = ⟨.ok, out, { s with mem := Memory.write s.mem a.toNat (BitVec.ofInt 8 v) }⟩ := by
  rw [writeCell, if_pos ha, if_pos hv, State.memWrite, ofInt_addr_toNat ha]

theorem writeCell_badAddress (ha : ¬ (0 ≤ a ∧ a ≤ 15)) (v : Int) (out : Output) (s : State) :
    writeCell a v out s = ⟨.invalidAddress, .nothing, s⟩ :=
  if_neg ha

theorem writeCell_badValue (ha : 0 ≤ a ∧ a ≤ 15) (hv : ¬ (0 ≤ v ∧ v ≤ 255)) (out : Output) (s : State) :
    writeCell a v out s = ⟨.invalidOperand, .nothing, s⟩ := by
  rw [writeCell, if_pos ha, if_neg hv]
  rfl

/-- A write of a byte to a cell is answered (20_memory.md R43). -/
theorem writeMemory_byte (a : Addr) (v : Byte) (s : State) :
    writeMemory a.toNat v.toNat s = ⟨.ok, .nothing, s.memWrite a v⟩ := by
  have ha := a.isLt
  have hv := v.isLt
  rw [writeMemory, writeCell_good (by omega) (by omega)]
  simp [State.memWrite]

/-- Settles O49, from the three answers of a write and the two of a read. -/
theorem accessorsCheckAddressThenValue : Obligations.AccessorsCheckAddressThenValue := by
  intro s a v
  refine ⟨fun low high => readMemory_inside ⟨low, high⟩ s, fun outside => ?_, fun low high bad => ?_⟩
  · have ha : ¬ (0 ≤ a ∧ a ≤ 15) := by omega
    exact ⟨readMemory_outside ha s, writeCell_badAddress ha v .nothing s⟩
  · exact writeCell_badValue ⟨low, high⟩ (by omega) .nothing s

/-- Settles O50, from a read after a write to the same and to another address. -/
theorem hostReadReturnsTheHostWrite : Obligations.HostReadReturnsTheHostWrite := by
  intro s a v hwf low high hv hv'
  refine ⟨_, writeCell_good ⟨low, high⟩ ⟨hv, hv'⟩ .nothing s, ?_, rfl,
    fun x hx => Memory.read_write_other s.mem _ hx⟩
  rw [readMemory_inside ⟨low, high⟩, Memory.read_write_same _ hwf]

/-! ### The echo -/

/-- The decoded instruction has the mnemonic the table gives its opcode (30_encoding.md R63, R64). -/
theorem mnemonic_decodeByte (cfg : Config) (b : Byte) :
    (decodeByte cfg b).mnemonic = tableMnemonic cfg (opField b) := by
  unfold decodeByte decodeFields
  cases tableMnemonic cfg (opField b) <;> rfl

/-- Settles O51, by the three answers of a write, which `loadInstruction` and `writeMemory` share. -/
theorem loadInstructionWritesAndEchoes : Obligations.LoadInstructionWritesAndEchoes := by
  intro s a v
  rw [mnemonic_decodeByte]
  unfold loadInstruction writeMemory
  by_cases ha : 0 ≤ a ∧ a ≤ 15
  · by_cases hv : 0 ≤ v ∧ v ≤ 255
    · simp [writeCell_good ha hv]
    · simp [writeCell_badValue ha hv]
  · simp [writeCell_badAddress ha]

/-! ### The text form (20_memory.md R48) -/

/-- The character that stands for a bit, which `bitOfChar` reads back. -/
def charOfBit (bit : Bool) : Char := if bit then '1' else '0'

/-- The bits of a byte, bit 7 first. -/
def bitsOfByte (b : Byte) : List Bool := [7, 6, 5, 4, 3, 2, 1, 0].map b.getLsbD

theorem bitOfChar_charOfBit (bit : Bool) : bitOfChar (charOfBit bit) = some bit := by
  cases bit <;> rfl

/-- Only `0` and `1` stand for a bit. -/
theorem eq_charOfBit_of_bitOfChar {c : Char} {bit : Bool} (h : bitOfChar c = some bit) : c = charOfBit bit := by
  unfold bitOfChar at h
  split_ifs at h with h1 h0
  · cases h; exact h1
  · cases h; exact h0

/-- Digits spell the number of their bits, the first the highest, below what was read before them. -/
theorem bitsValue_map_charOfBit (bits : List Bool) (acc : Nat) :
    bitsValue (bits.map charOfBit) acc = some (2 ^ bits.length * acc + (BitVec.ofBoolListBE bits).toNat) := by
  induction bits generalizing acc with
  | nil => simp [bitsValue, BitVec.ofBoolListBE]
  | cons bit bits ih =>
    simp only [List.map_cons, bitsValue, bitOfChar_charOfBit, ih, BitVec.ofBoolListBE, BitVec.toNat_cons',
      Nat.shiftLeft_eq, List.length_cons]
    ring_nf

/-- A text that spells a number is a list of digits. -/
theorem eq_map_charOfBit_of_bitsValue {text : List Char} {acc n : Nat} (h : bitsValue text acc = some n) :
    ∃ bits : List Bool, text = bits.map charOfBit := by
  induction text generalizing acc with
  | nil => exact ⟨[], rfl⟩
  | cons c cs ih =>
    cases hc : bitOfChar c with
    | none => simp [bitsValue, hc] at h
    | some bit =>
      simp only [bitsValue, hc] at h
      obtain ⟨bits, rfl⟩ := ih h
      exact ⟨bit :: bits, by rw [eq_charOfBit_of_bitOfChar hc, List.map_cons]⟩

/-- The number of a byte's bits is the byte. -/
theorem toNat_bitsOfByte (b : Byte) : (BitVec.ofBoolListBE (bitsOfByte b)).toNat = b.toNat := by
  revert b; decide

/-- Eight bits are the bits of a byte. -/
theorem eq_bitsOfByte {bits : List Bool} (h : bits.length = 8) : ∃ b : Byte, bits = bitsOfByte b := by
  match bits, h with
  | [b7, b6, b5, b4, b3, b2, b1, b0], _ =>
    refine ⟨BitVec.ofBoolListBE [b7, b6, b5, b4, b3, b2, b1, b0], ?_⟩
    simp only [bitsOfByte, List.map_cons, List.map_nil, BitVec.getLsbD_ofBoolListBE]
    rfl

/-- A text is well formed exactly if it is the digits of a byte. -/
theorem parseCell_eq_some {text : List Char} {n : Nat} :
    parseCell text = some n ↔ ∃ b : Byte, n = b.toNat ∧ text = (bitsOfByte b).map charOfBit := by
  constructor
  · intro h
    unfold parseCell at h
    split_ifs at h with hlen
    obtain ⟨bits, rfl⟩ := eq_map_charOfBit_of_bitsValue h
    obtain ⟨b, rfl⟩ := eq_bitsOfByte (by simpa using hlen)
    rw [bitsValue_map_charOfBit, toNat_bitsOfByte] at h
    exact ⟨b, by simpa using h.symm, rfl⟩
  · rintro ⟨b, rfl, rfl⟩
    rw [parseCell, if_pos (by rfl), bitsValue_map_charOfBit, toNat_bitsOfByte, Nat.mul_zero, Nat.zero_add]

theorem writeMemoryText_wellFormed {text : List Char} {n : Nat} (h : parseCell text = some n) (a : Int) (s : State) :
    writeMemoryText a text s = writeMemory a n s := by
  simp only [writeMemoryText, h]

theorem loadInstructionText_wellFormed {text : List Char} {n : Nat} (h : parseCell text = some n) (a : Int)
    (s : State) : loadInstructionText a text s = loadInstruction a n s := by
  simp only [loadInstructionText, h]

theorem writeMemoryText_malformed {text : List Char} (h : parseCell text = none) (ha : 0 ≤ a ∧ a ≤ 15) (s : State) :
    writeMemoryText a text s = ⟨.invalidOperand, .nothing, s⟩ := by
  simp only [writeMemoryText, h, if_pos ha, State.raise]

theorem loadInstructionText_malformed {text : List Char} (h : parseCell text = none) (ha : 0 ≤ a ∧ a ≤ 15)
    (s : State) : loadInstructionText a text s = ⟨.invalidOperand, .nothing, s⟩ := by
  simp only [loadInstructionText, h, if_pos ha, State.raise]

/-- Settles O52, from the texts that spell a byte and the two answers to a text. -/
theorem textFormIsTheEightDigitsOfAByte : Obligations.TextFormIsTheEightDigitsOfAByte :=
  ⟨fun _ _ => parseCell_eq_some, fun s a _ =>
    ⟨fun _ h => ⟨writeMemoryText_wellFormed h a s, loadInstructionText_wellFormed h a s⟩,
     fun h low high => ⟨writeMemoryText_malformed h ⟨low, high⟩ s, loadInstructionText_malformed h ⟨low, high⟩ s⟩⟩⟩

/-! ### The order of writes, fetches and decodes (20_memory.md R47, R54, R57) -/

/-- Settles O53, by induction on the list: the writes after the first are the latest, then the first. -/
theorem readReturnsTheLatestWrite : Obligations.ReadReturnsTheLatestWrite := by
  intro s ws hwf
  induction ws generalizing s with
  | nil => exact ⟨s, rfl, fun _ => rfl⟩
  | cons w ws ih =>
    obtain ⟨t, hrun, hread⟩ := ih (s.memWrite w.1 w.2) (Memory.wf_write w.1 w.2 hwf)
    refine ⟨t, ?_, fun a => ?_⟩
    · simp only [List.map_cons, runCommands, runCommand, writeMemory_byte, hrun]
    · rw [hread, List.reverse_cons, List.find?_append]
      cases ws.reverse.find? fun w => w.1 == a with
      | some later => rfl
      | none =>
        by_cases ha : w.1 = a
        · simp [ha, State.memRead_memWrite_same s a w.2 hwf]
        · simp [ha, State.memRead_memWrite_other s w.2 (Ne.symm ha)]

/-- What fetch and then decode show of a running engine: the byte at IAR and its instruction. -/
theorem fetch_then_decode (running : s.halted = false) :
    (fetch s).output = .byte (s.memRead s.iar) ∧
      (decode (fetch s).state).state.lastDecoded = some (decodeByte s.config (s.memRead s.iar)) := by
  rw [decode_fetch running, fetch_running running]
  exact ⟨rfl, rfl⟩

/-- The instruction at IAR is a store of `b` to the cell `a`. -/
def State.Stores (s : State) (a : Addr) (b : Byte) : Prop :=
  s.current = .storeA a ∧ b = s.regA ∨ s.current = .storeB a ∧ b = s.regB

/-- A store leaves the fetched state with the execute entry and the cell written (41_load_store.md R97, R98). -/
theorem State.Stores.after_current {k : Addr} {b : Byte} (h : s.Stores k b) :
    s.fetched.after s.current = s.fetched.enterExecute.memWrite k b := by
  obtain ⟨hi, rfl⟩ | ⟨hi, rfl⟩ := h
  · rw [hi]; rfl
  · rw [hi]; rfl

/-- The cycle of a store on a running engine with no marked jump. -/
theorem step_store {k : Addr} {b : Byte} (running : s.halted = false) (unmarked : s.jumped = false)
    (hstore : s.Stores k b) (h : step s = .next t) :
    t.halted = false ∧ t.iar = s.iar + 1#4 ∧ t.mem = Memory.write s.mem k.toNat b ∧ t.config = s.config := by
  rw [step_running running, hstore.after_current,
    incrementIAR_running (s := s.fetched.enterExecute.memWrite k b) running] at h
  cases h
  refine ⟨running, ?_, rfl, rfl⟩
  simp [State.fetched, unmarked]

/-- Settles O54: the cycle of the store, then a read of the cell it wrote. -/
theorem storeIntoTheNextCellIsFetchedNext : Obligations.StoreIntoTheNextCellIsFetchedNext := by
  intro s t v hwf running unmarked hstore h
  obtain ⟨hrun, hiar, hmem, hcfg⟩ := step_store running unmarked hstore h
  have hread : t.memRead t.iar = v := by rw [State.memRead, hmem, hiar, Memory.read_write_same v hwf]
  have hcycle := fetch_then_decode hrun
  rw [hread, hcfg] at hcycle
  exact ⟨hiar, hcycle⟩

/-- Settles O55: the write leaves IR, which decode reads, as the fetch left it. -/
theorem hostWriteAfterFetchLeavesTheFetchedInstruction :
    Obligations.HostWriteAfterFetchLeavesTheFetchedInstruction := by
  intro s v hwf running
  refine ⟨s.fetched.memWrite s.iar v, ?_, rfl, Memory.read_write_same v hwf⟩
  simp only [runCommands, runCommand, writeMemory_byte, fetch_running running]
  rw [decode_running (by simpa using running)]
  rfl

end Sys2Proof.Machine
end

section
/-! Encoding and decoding (30_encoding.md R59 to R67): the opcode table says what the two fields of a byte decode to,
and the encoder writes the fields that decode to the instruction. -/

namespace Sys2Proof

variable {cfg : Config} {op : Nibble} {m : Mnemonic} {k : OperandKind} {i : Instr}

/-! ### The opcode table (30_encoding.md R63, R64) -/

/-- The operand value a kind takes from the operand field: the kinds None and Regs have none (30_encoding.md R61). -/
def OperandKind.operandValue : OperandKind → Nibble → Option Nibble
  | .none, _ => Option.none
  | .addr, opr => some opr
  | .regs, _ => Option.none
  | .data, opr => some opr

/-- The opcodes with no entry are those the table leaves out (30_encoding.md R64). -/
theorem lookupOpcode_unassigned (h : opcodeUnassigned cfg op = true) : lookupOpcode cfg op = none := by
  simp only [opcodeUnassigned, Bool.or_eq_true, Bool.and_eq_true, beq_iff_eq, Bool.not_eq_true'] at h
  obtain (((rfl | rfl) | rfl) | rfl) | ⟨rfl, habsent⟩ := h
  case inr => simp [lookupOpcode, opcodeTable, habsent]
  all_goals cases hp : cfg.addiPresent <;> simp [lookupOpcode, opcodeTable, hp]

/-- Opcode 1010 has an entry where ADDI is present (00_scope.md R8). -/
theorem lookupOpcode_addi (h : cfg.addiPresent = true) :
    lookupOpcode cfg 0b1010#4 = some ⟨0b1010#4, .addi, .data⟩ := by
  simp [lookupOpcode, opcodeTable, h]

/-- The entry of HALT follows the one of ADDI, present or not. -/
theorem lookupOpcode_halt (cfg : Config) : lookupOpcode cfg 0b1111#4 = some ⟨0b1111#4, .halt, .none⟩ := by
  cases h : cfg.addiPresent <;> simp [lookupOpcode, opcodeTable, h]

theorem tableMnemonic_of_lookup {row : OpcodeRow} (h : lookupOpcode cfg op = some row) :
    tableMnemonic cfg op = row.mnemonic := by
  rw [tableMnemonic, h]

theorem tableMnemonic_unassigned (h : opcodeUnassigned cfg op = true) : tableMnemonic cfg op = .unknown := by
  rw [tableMnemonic, lookupOpcode_unassigned h]

/-- An instruction assembled from an entry of the table has the entry's record. -/
theorem record_assemble_of_mem (h : ⟨op, m, k⟩ ∈ opcodeTable cfg) (opr : Nibble) :
    (assemble m op opr).record = ⟨m, k, op, k.operandValue opr⟩ := by
  simp only [opcodeTable, List.mem_append, List.mem_cons, List.mem_ite_nil_right, List.not_mem_nil, or_false,
    OpcodeRow.mk.injEq] at h
  obtain ((h | h | h | h | h | h | h | h | h | h) | ⟨-, h⟩) | h := h <;> obtain ⟨rfl, rfl, rfl⟩ := h <;> rfl

/-! ### The decoder -/

/-- The record of an opcode that has an entry. -/
theorem record_decodeFields_of_lookup (h : lookupOpcode cfg op = some ⟨op, m, k⟩) (opr : Nibble) :
    (decodeFields cfg op opr).record = ⟨m, k, op, k.operandValue opr⟩ := by
  rw [decodeFields, tableMnemonic_of_lookup h]
  exact record_assemble_of_mem (List.mem_of_find?_eq_some h) opr

/-- An opcode that has no entry decodes to UNKNOWN. -/
theorem decodeFields_of_lookup_none (h : lookupOpcode cfg op = none) (opr : Nibble) :
    decodeFields cfg op opr = .unknown op := by
  rw [decodeFields, tableMnemonic, h]; rfl

/-- The decoded instruction keeps the raw opcode (40_cycle.md R74). -/
theorem opbits_decodeFields (cfg : Config) (op opr : Nibble) : (decodeFields cfg op opr).opbits = op := by
  cases h : lookupOpcode cfg op with
  | none => rw [decodeFields_of_lookup_none h]; rfl
  | some row =>
    obtain ⟨op', m, k⟩ := row
    obtain rfl : op' = op := by simpa using List.find?_some h
    exact congrArg DecodedRecord.opbits (record_decodeFields_of_lookup h opr)

/-- An assembled instruction has no operand value but the operand field. -/
theorem eq_of_value_assemble {opr v : Nibble} (h : (assemble m op opr).value = some v) : v = opr := by
  cases m with
  | loadA | loadB | storeA | storeB | jump | jumpNeg | jumpZero | addi => exact (Option.some.inj h).symm
  | nop | add | sub | halt | unknown => cases h

/-- Settles O2, from what the decoder keeps of the two fields. -/
theorem decodedByteKeepsItsFields : Obligations.DecodedByteKeepsItsFields := by
  intro cfg b
  refine ⟨Machine.decodeFields_wellFormed cfg _ _, ?_, fun v hv => ?_⟩
  · rw [decodeByte, opbits_decodeFields, Machine.toNat_opField]
  · rw [eq_of_value_assemble hv, Machine.toNat_oprField]

/-- A row of the opcode table, as decode returns it. -/
theorem record_decodeByte_of_lookup (h : lookupOpcode cfg op = some ⟨op, m, k⟩) (opr : Nibble) :
    (decodeByte cfg (op ++ opr)).record = ⟨m, k, op, k.operandValue opr⟩ := by
  rw [Machine.decodeByte_append, record_decodeFields_of_lookup h]

/-- A byte whose opcode has no entry, with any operand field (30_encoding.md R64). -/
theorem decodeByte_unassigned (h : opcodeUnassigned cfg op = true) (opr : Nibble) :
    decodeByte cfg (op ++ opr) = .unknown op := by
  rw [Machine.decodeByte_append, decodeFields_of_lookup_none (lookupOpcode_unassigned h)]

/-- The UNKNOWN record has kind None, the raw opcode and no value (log 12). -/
theorem record_decodeByte_unassigned (h : opcodeUnassigned cfg op = true) (opr : Nibble) :
    (decodeByte cfg (op ++ opr)).record = ⟨.unknown, .none, op, none⟩ :=
  congrArg Instr.record (decodeByte_unassigned h opr)

/-- Opcode 1010 is ADDI or UNKNOWN, as the configuration says (00_scope.md R8). -/
theorem record_decodeByte_addi (cfg : Config) (opr : Nibble) : (decodeByte cfg (0b1010#4 ++ opr)).record =
    if cfg.addiPresent then ⟨.addi, .data, 0b1010#4, some opr⟩ else ⟨.unknown, .none, 0b1010#4, none⟩ := by
  split
  case isTrue h => exact record_decodeByte_of_lookup (lookupOpcode_addi h) opr
  case isFalse h => exact record_decodeByte_unassigned (by simp [opcodeUnassigned, h]) opr

/-- Settles O3, row by row: the entries before ADDI's do not depend on the configuration. -/
theorem opcodeTableMapsOpcodeToMnemonicAndKind : Obligations.OpcodeTableMapsOpcodeToMnemonicAndKind := by
  refine ⟨fun cfg opr => ?_, rfl, rfl⟩
  refine ⟨?nop, ?loadA, ?loadB, ?storeA, ?storeB, ?add, ?sub, ?jump, ?jumpNeg, ?jumpZero, ?addi,
    ?unknown1011, ?unknown1100, ?unknown1101, ?unknown1110, ?halt⟩
  case addi => exact record_decodeByte_addi cfg opr
  case unknown1011 | unknown1100 | unknown1101 | unknown1110 => exact record_decodeByte_unassigned rfl opr
  case halt => exact record_decodeByte_of_lookup (lookupOpcode_halt cfg) opr
  all_goals exact record_decodeByte_of_lookup rfl opr

/-! ### The encoder (30_encoding.md R67) -/

/-- The table gives the opcode of an instruction of the configuration the instruction's mnemonic. -/
theorem tableMnemonic_opbits (h : i.wellFormed cfg = true) : tableMnemonic cfg i.opbits = i.mnemonic := by
  cases i with
  | addi imm => exact tableMnemonic_of_lookup (lookupOpcode_addi h)
  | unknown op => exact tableMnemonic_unassigned h
  | halt => exact tableMnemonic_of_lookup (lookupOpcode_halt cfg)
  | nop | loadA | loadB | storeA | storeB | add | sub | jump | jumpNeg | jumpZero => rfl

/-- An instruction is what its mnemonic makes of the two fields the encoder writes. -/
theorem assemble_operandBits (i : Instr) : assemble i.mnemonic i.opbits i.operandBits = i := by
  cases i <;> rfl

/-- Settles O1: the table gives the encoded opcode its mnemonic, which reads the operand field back. -/
theorem decodeOfEncodeIsTheInstruction : Obligations.DecodeOfEncodeIsTheInstruction := by
  intro cfg i h
  calc decodeByte cfg (encode i)
    _ = decodeFields cfg i.opbits i.operandBits := Machine.decodeByte_append cfg _ _
    _ = assemble i.mnemonic i.opbits i.operandBits := by rw [decodeFields, tableMnemonic_opbits h]
    _ = i := assemble_operandBits i

/-- A word that is the encoding of an instruction decodes to it. -/
theorem decodeByte_of_encode {b : Byte} (hb : encode i = b) (h : i.wellFormed cfg = true) : decodeByte cfg b = i :=
  hb ▸ decodeOfEncodeIsTheInstruction cfg i h

/-- Settles O4: each word is the encoding of its instruction, but for UNKNOWN, which has none in R67. -/
theorem spelledWordsDecode : Obligations.SpelledWordsDecode :=
  ⟨decodeByte_of_encode rfl rfl, decodeByte_of_encode rfl rfl, decodeByte_of_encode rfl rfl,
    decodeByte_of_encode rfl rfl, decodeByte_of_encode rfl rfl,
    decodeByte_unassigned (op := 0b1010#4) rfl 0b0101#4, decodeByte_of_encode rfl rfl⟩

end Sys2Proof
end

section
/-! The cycle of an opcode with no entry in the table (44_system.md R113). -/

namespace Sys2Proof.Machine

variable {s : State} {op : Nibble}

/-- On a running engine fetch and then decode answer OK, whatever the byte at IAR (30_encoding.md R66). -/
theorem fetch_then_decode_ok (running : s.halted = false) : (decode (fetch s).state).response = .ok := by
  rw [fetch_running running, decode_running (by simpa using running)]

/-- The instruction halts the engine, so the increment that follows it changes nothing (D6, log 5). -/
theorem stepCycle_unknown (running : s.halted = false) (hop : s.current = .unknown op) :
    stepCycle s = .next ⟨.unknownOpcode, .nothing, s.fetched.enterExecute.halt⟩ := by
  have hafter : s.fetched.after (.unknown op) = s.fetched.enterExecute.halt := rfl
  rw [stepCycle_running running, hop, hafter, incrementIAR_halted (State.halt_halted _)]
  rfl

/-- Settles O20: decoding never fails, and the halted state is the fetched one but for O and the halt. -/
theorem unknownOpcodeFailsOnlyAtExecute : Obligations.UnknownOpcodeFailsOnlyAtExecute :=
  fun _ _ running hop => ⟨fetch_then_decode_ok running, _, stepCycle_unknown running hop,
    rfl, rfl, rfl, rfl, rfl, rfl, rfl, rfl⟩

end Sys2Proof.Machine
end

section
/-! What an instruction leaves unchanged (40_cycle.md R77, 42_alu.md R106). -/

namespace Sys2Proof.Machine

variable {s : State} {i : Instr}

/-! ### The frame of the instructions that store nothing -/

namespace State

/-- An instruction that is not a store leaves every cell. -/
theorem read_after_of_no_store (hstore : ∀ a, i ≠ .storeA a ∧ i ≠ .storeB a) (x : Nat) :
    Memory.read (s.after i).mem x = Memory.read s.mem x := by
  by_contra hne
  obtain ⟨a, -, hi⟩ := after_writes_cell hne
  exact hi.elim (hstore a).1 (hstore a).2

/-- The instructions the spec names as writers of A are its only ones. -/
theorem after_regA_of_no_writer (hload : ∀ a, i ≠ .loadA a) (hadd : i ≠ .add) (hsub : i ≠ .sub)
    (haddi : ∀ imm, i ≠ .addi imm) : (s.after i).regA = s.regA := by
  rw [after_regA]
  cases i with
  | loadA a => exact absurd rfl (hload a)
  | addi imm => exact absurd rfl (haddi imm)
  | add | sub => contradiction
  | nop | loadB | storeA | storeB | jump | jumpNeg | jumpZero | unknown | halt => rfl

/-- Only LOAD_B writes B. -/
theorem after_regB_of_no_load (hload : ∀ a, i ≠ .loadB a) : (s.after i).regB = s.regB := by
  rw [after_regB]
  cases i with
  | loadB a => exact absurd rfl (hload a)
  | nop | loadA | storeA | storeB | add | sub | jump | jumpNeg | jumpZero | addi | unknown | halt => rfl

/-- Z and N are written by the loads and the ALU instructions only. -/
theorem after_flagsZN_of_no_writer (hloadA : ∀ a, i ≠ .loadA a) (hloadB : ∀ a, i ≠ .loadB a) (hadd : i ≠ .add)
    (hsub : i ≠ .sub) (haddi : ∀ imm, i ≠ .addi imm) :
    (s.after i).flagZ = s.flagZ ∧ (s.after i).flagN = s.flagN := by
  rw [after_flagZ, after_flagN]
  cases i with
  | loadA a => exact absurd rfl (hloadA a)
  | loadB a => exact absurd rfl (hloadB a)
  | addi imm => exact absurd rfl (haddi imm)
  | add | sub => contradiction
  | nop | storeA | storeB | jump | jumpNeg | jumpZero | unknown | halt => exact ⟨rfl, rfl⟩

/-- IAR and the marker are written by the jumps only. -/
theorem after_iar_jumped_of_no_jump (hjump : ∀ k, i ≠ .jump k) (hneg : ∀ k, i ≠ .jumpNeg k)
    (hzero : ∀ k, i ≠ .jumpZero k) : (s.after i).iar = s.iar ∧ (s.after i).jumped = s.jumped := by
  obtain (hi | ⟨-, hi⟩ | ⟨-, hi⟩) | hkept := s.after_jump_cases i
  · exact absurd hi (hjump _)
  · exact absurd hi (hneg _)
  · exact absurd hi (hzero _)
  · exact hkept

/-- `halted` is written by HALT and UNKNOWN only. -/
theorem after_halted_of_no_halt (hhalt : i ≠ .halt) (hunknown : ∀ op, i ≠ .unknown op) :
    (s.after i).halted = s.halted := by
  rw [after_halted]
  cases i with
  | halt => contradiction
  | unknown op => exact absurd rfl (hunknown op)
  | nop | loadA | loadB | storeA | storeB | add | sub | jump | jumpNeg | jumpZero | addi => rfl

/-- A store is the execute entry and a write to its cell. -/
theorem after_store {a : Addr} (hi : i = .storeA a ∨ i = .storeB a) :
    ∃ v, s.after i = s.enterExecute.memWrite a v := by
  obtain rfl | rfl := hi
  · exact ⟨s.regA, rfl⟩
  · exact ⟨s.regB, rfl⟩

end State

/-- Settles O32, element by element. -/
theorem instructionsThatStoreNothingKeepTheRest : Obligations.InstructionsThatStoreNothingKeepTheRest := by
  intro i s t h hstore
  cases exec_next_iff.1 h
  exact ⟨State.read_after_of_no_store hstore, s.after_irOp i, s.after_irOpr i, s.after_config i,
    State.after_regA_of_no_writer, State.after_regB_of_no_load, State.after_flagsZN_of_no_writer,
    State.after_iar_jumped_of_no_jump, State.after_halted_of_no_halt⟩

/-- Settles O33: a store writes one cell after the execute entry, and neither touches the rest. -/
theorem storesKeepEverythingButTheirCell : Obligations.StoresKeepEverythingButTheirCell := by
  intro i s t a hi h
  obtain ⟨v, hstore⟩ := State.after_store (s := s) hi
  obtain rfl := hstore.symm.trans (exec_next_iff.1 h)
  exact ⟨fun x hx => Memory.read_write_other s.mem v hx, rfl, rfl, rfl, rfl, rfl, rfl, rfl, rfl, rfl, rfl⟩

end Sys2Proof.Machine
end

section
/-! The instruction cycle (40_cycle.md R72 to R85): the phases on a running engine, the step as their sequence, and
the run as repeated steps. -/

namespace Sys2Proof.Machine

variable {s t : State} {i : Instr} {c : Command} {cs : List Command} {r : CommandResult} {m n : Nat}

/-! ### fetch and decode -/

theorem opField_eq_ofNat (b : Byte) : opField b = BitVec.ofNat 4 (b.toNat / 16) := by
  rw [← toNat_opField, BitVec.ofNat_toNat, BitVec.setWidth_eq]

theorem oprField_eq_ofNat (b : Byte) : oprField b = BitVec.ofNat 4 (b.toNat % 16) := by
  rw [← toNat_oprField, BitVec.ofNat_toNat, BitVec.setWidth_eq]

/-- A fetch moves neither IAR nor a cell, so the next fetch is the same (40_cycle.md R72). -/
theorem fetch_fetch (s : State) : fetch (fetch s).state = fetch s := by
  cases hrun : s.halted with
  | true => rw [fetch_halted hrun, fetch_halted hrun]
  | false => rw [fetch_running hrun, fetch_setIr _ _ hrun, fetch_running hrun]

/-- Settles O34: IR gets the two halves of the byte as numbers. -/
theorem fetchReadsTheCellAtTheInstructionAddress : Obligations.FetchReadsTheCellAtTheInstructionAddress := by
  refine ⟨?_, fun s => fetch_halted, fetch_fetch, fun s => by rw [fetch_running s.registerReset_halted]; rfl⟩
  rintro s b running rfl
  rw [← opField_eq_ofNat, ← oprField_eq_ofNat, fetch_running running]
  rfl

/-- Settles O35: decoding IR is decoding the byte of its two halves. -/
theorem decodeHoldsTheInstructionInTheRegister : Obligations.DecodeHoldsTheInstructionInTheRegister := by
  rintro s i running rfl
  rw [decodeByte_append, decode_running running]
  rfl

/-! ### execute -/

/-- Only an unknown opcode has the response UnknownOpcode (44_system.md R113). -/
theorem executeResponse_eq_unknownOpcode_iff : executeResponse i = .unknownOpcode ↔ ∃ op, i = .unknown op := by
  cases i <;> simp [executeResponse]

/-- Every other instruction has the response OK (40_cycle.md R75). -/
theorem executeResponse_eq_ok_iff : executeResponse i = .ok ↔ ∀ op, i ≠ .unknown op := by
  cases i <;> simp [executeResponse]

/-- Settles O36: the state is the one `exec` answers. -/
theorem executeConsumesTheDecodedInstruction : Obligations.ExecuteConsumesTheDecodedInstruction :=
  ⟨fun s i running held => ⟨s.after i, exec_eq i s, s.after_lastDecoded i, executeResponse i,
    execute_some running held, executeResponse_eq_unknownOpcode_iff, executeResponse_eq_ok_iff⟩,
   fun _ => execute_none⟩

/-! ### incrementIAR -/

/-- The increment of a 4-bit address wraps (40_cycle.md R78). -/
theorem addr_succ_eq_ofNat (a : Addr) : a + 1#4 = BitVec.ofNat 4 ((a.toNat + 1) % 16) := by
  apply BitVec.eq_of_toNat_eq
  simp

/-- What the increment leaves, on a running and on a halted engine. -/
theorem incrementIAR_state (s : State) : (incrementIAR s).state = if s.halted then s
    else { s with iar := if s.jumped then s.iar else s.iar + 1#4, jumped := false } := by
  split
  case isTrue stopped => rw [incrementIAR_halted stopped]
  case isFalse running => rw [incrementIAR_running (Bool.eq_false_of_not_eq_true running)]

/-- Settles O37: adding 1 to a 4-bit address is the increment modulo 16. -/
theorem incrementAdvancesModuloSixteen : Obligations.IncrementAdvancesModuloSixteen := by
  intro s
  rw [← addr_succ_eq_ofNat]
  exact ⟨incrementIAR_running, incrementIAR_halted⟩

/-- Settles O41, from the rejection by the command port, which the machine's step inherits. -/
theorem haltedEngineRejectsEveryCycleCommand : Obligations.HaltedEngineRejectsEveryCycleCommand :=
  fun _ stopped => ⟨fun _ => runCommand_halted stopped, step_halted stopped⟩

/-! ### step -/

/-- Settles O38: the state after fetch and decode is the fetched one, and `exec` answers `after`. -/
theorem stepExecutesTheByteAtTheInstructionAddress : Obligations.StepExecutesTheByteAtTheInstructionAddress := by
  rintro s t b i running rfl rfl h
  have hafter : s.fetched.after s.current = t := exec_next_iff.1 h
  rw [step_running running, hafter, incrementIAR_state]

/-- A command that is answered leaves its state to the commands after it (20_memory.md R54). -/
theorem runCommands_cons (h : runCommand c s = .next r) : runCommands (c :: cs) s = runCommands cs r.state := by
  rw [runCommands, h]

/-- A halted engine rejects any sequence of cycle commands (40_cycle.md R82; D6, log 5). -/
theorem runCommands_halted (stopped : s.halted = true)
    (hcs : ∀ c ∈ cs, c ∈ [Command.fetch, .decode, .execute, .incrementIAR, .step]) :
    runCommands cs s = .next s := by
  induction cs with
  | nil => rfl
  | cons c cs ih =>
    rw [List.forall_mem_cons] at hcs
    rw [runCommands_cons (runCommand_halted stopped hcs.1)]
    exact ih hcs.2

/-- Settles O39: on a running engine the first two phases leave the fetched state, which has an instruction to
execute; a halted one rejects all four. -/
theorem stepIsTheFourPhases : Obligations.StepIsTheFourPhases := by
  intro s
  cases hrun : s.halted with
  | true => rw [step_halted hrun, runCommands_halted hrun (by decide)]
  | false =>
    have hexecute : runCommand .execute s.fetched =
        .next ⟨executeResponse s.current, .nothing, s.fetched.after s.current⟩ := execute_some hrun rfl
    calc step s
      _ = .next (incrementIAR (s.fetched.after s.current)).state := step_running hrun
      _ = runCommands [.incrementIAR] (s.fetched.after s.current) := rfl
      _ = runCommands [.execute, .incrementIAR] s.fetched := (runCommands_cons hexecute).symm
      _ = runCommands [.execute, .incrementIAR] (decode (fetch s).state).state := by rw [decode_fetch hrun]
      _ = runCommands [.fetch, .decode, .execute, .incrementIAR] s := rfl

/-- IAR after an instruction and the increment (40_cycle.md R78, R79): a taken jump marks itself, so the increment
keeps its target; a halt blocks the increment. -/
theorem incrementIAR_after_iar (running : s.halted = false) (i : Instr) {next : Addr}
    (hnext : next = if s.jumped then s.iar else s.iar + 1#4) :
    (incrementIAR (s.after i)).state.iar = match i with
      | .jump k => k
      | .jumpNeg k => if s.flagN then k else next
      | .jumpZero k => if s.flagZ then k else next
      | .halt => s.iar
      | .unknown _ => s.iar
      | _ => next := by
  rw [incrementIAR_state, apply_ite State.iar, s.after_halted, s.after_iar, s.after_jumped, hnext]
  cases i with
  | jumpNeg k => cases hn : s.flagN <;> simp [running]
  | jumpZero k => cases hz : s.flagZ <;> simp [running]
  | nop | loadA | loadB | storeA | storeB | add | sub | jump | addi | unknown | halt => simp [running]

/-- An engine that is not halted has no jump marked after the increment (40_cycle.md R78). -/
theorem incrementIAR_jumped (h : (incrementIAR s).state.halted = false) : (incrementIAR s).state.jumped = false := by
  rw [incrementIAR_halted_eq] at h
  rw [incrementIAR_running h]

/-- Settles O40: the cycle of a running engine is an instruction and the increment. -/
theorem stepLeadsToTheNextInstructionAddress : Obligations.StepLeadsToTheNextInstructionAddress := by
  intro s t next running h hnext
  rw [step_running running] at h
  cases h
  exact ⟨incrementIAR_after_iar (s := s.fetched) running s.current hnext, incrementIAR_jumped⟩

/-! ### run -/

/-- A run that has ended stays where it is (40_cycle.md R81). -/
theorem run_halted (stopped : s.halted = true) (n : Nat) : run n s = .next s := by
  cases n with
  | zero => rfl
  | succ n => rw [run, if_pos stopped]

/-- A run with fuel is a step and the run of the rest; on a halted engine both stay. -/
theorem run_succ (h : stepCycle s = .next r) (n : Nat) : run (n + 1) s = run n r.state := by
  cases hrun : s.halted with
  | true =>
    cases (stepCycle_halted hrun).symm.trans h
    rw [run_halted hrun, run_halted hrun]
  | false => simp [run, hrun, h]

/-- A run is the step command issued again and again (D20, log 18). -/
theorem run_eq_runCommands (m : Nat) (s : State) : run m s = runCommands (List.replicate m .step) s := by
  induction m generalizing s with
  | zero => rfl
  | succ m ih =>
    obtain ⟨r, hr⟩ := stepCycle_answered s
    rw [run_succ hr, List.replicate_succ, runCommands_cons (c := .step) hr, ih]

/-- A run is answered, whatever its fuel. -/
theorem run_answered (m : Nat) (s : State) : ∃ t, run m s = .next t := by
  induction m generalizing s with
  | zero => exact ⟨s, rfl⟩
  | succ m ih =>
    obtain ⟨r, hr⟩ := stepCycle_answered s
    rw [run_succ hr]
    exact ih r.state

/-- Runs compose: the fuel left over runs on from where the first run ends. -/
theorem run_add (h : run m s = .next t) (n : Nat) : run (m + n) s = run n t := by
  induction m generalizing s with
  | zero => cases h; rw [Nat.zero_add]
  | succ m ih =>
    obtain ⟨r, hr⟩ := stepCycle_answered s
    rw [run_succ hr] at h
    rw [Nat.succ_add, run_succ hr, ih h]

/-- Settles O45, from the composition of runs and the run that has ended. -/
theorem runIsRepeatedStepUntilHalted : Obligations.RunIsRepeatedStepUntilHalted := by
  intro m n s
  obtain ⟨t, ht⟩ := run_answered m s
  exact ⟨run_eq_runCommands m s, t, ht, run_add ht n, fun stopped => (run_add ht n).trans (run_halted stopped n)⟩

end Sys2Proof.Machine
end

section
/-! The loads and the stores (41_load_store.md R95 to R98). -/

namespace Sys2Proof.Machine

variable {s : State} {i : Instr} {k : Addr} {b : Byte}

/-- Settles O6, from the load field by field after the execute entry. -/
theorem loadACompletesWithTheLoadedByte : Obligations.LoadACompletesWithTheLoadedByte := by
  rintro s a _ rfl
  rw [exec_eq, State.after, State.load_a_eq, bit7_eq_decide]
  rfl

/-- Settles O7, from the load field by field after the execute entry. -/
theorem loadBCompletesWithTheLoadedByte : Obligations.LoadBCompletesWithTheLoadedByte := by
  rintro s a _ rfl
  rw [exec_eq, State.after, State.load_b_eq, bit7_eq_decide]
  rfl

/-- An instruction that is the execute entry and a write of `b` to the cell `k` completes, and shows the byte to a read
and to a fetch of that cell alone. -/
theorem exec_of_after_eq_memWrite (hstore : s.after i = s.enterExecute.memWrite k b) :
    ∃ t, exec i s = .next t ∧
      t = { s with flagO := false, mem := t.mem, lastDecoded := t.lastDecoded } ∧
      (Memory.wf s.mem = true → Memory.read t.mem k.toNat = b ∧
        (s.halted = false → (fetch (t.setIar k)).output = .byte b)) ∧
      ∀ x, x ≠ k.toNat → Memory.read t.mem x = Memory.read s.mem x := by
  refine ⟨s.enterExecute.memWrite k b, exec_next_iff.2 hstore, rfl, fun hwf => ?_,
    fun x hx => Memory.read_write_other s.mem b hx⟩
  have hread : (s.enterExecute.memWrite k b).memRead k = b := State.memRead_memWrite_same _ k b hwf
  refine ⟨hread, fun running => ?_⟩
  have hfetch := (fetch_then_decode (s := (s.enterExecute.memWrite k b).setIar k) running).1
  exact hfetch.trans (congrArg Output.byte hread)

/-- Settles O8: STORE_A is the execute entry and a write of A. -/
theorem storeACompletesWithTheCellWritten : Obligations.StoreACompletesWithTheCellWritten :=
  fun _ _ => ⟨fun _ => ⟨rfl, decodeByte_of_encode rfl rfl⟩, exec_of_after_eq_memWrite rfl⟩

/-- Settles O9: STORE_B is the execute entry and a write of B. -/
theorem storeBCompletesWithTheCellWritten : Obligations.StoreBCompletesWithTheCellWritten :=
  fun _ _ => ⟨fun _ => ⟨rfl, decodeByte_of_encode rfl rfl⟩, exec_of_after_eq_memWrite rfl⟩

end Sys2Proof.Machine
end

section
/-! Arithmetic (42_alu.md R100 to R104): ADD, SUB and ADDI are the execute entry and one write of the ALU's result. -/

namespace Sys2Proof.Machine

variable {s t : State} {i : Instr}

/-! ### The decoder (30_encoding.md R62, R63) -/

/-- An opcode that has an entry decodes, with any operand field, to what the entry's mnemonic makes of it. -/
theorem decodeByte_append_of_lookup {cfg : Config} {op : Nibble} {m : Mnemonic} {k : OperandKind}
    (h : lookupOpcode cfg op = some ⟨op, m, k⟩) (opr : Nibble) :
    decodeByte cfg (op ++ opr) = assemble m op opr := by
  rw [decodeByte_append, decodeFields, tableMnemonic_of_lookup h]

/-! ### The result as a number, and the sign rules -/

/-- The sum of two bytes is the exact sum modulo 256. -/
theorem ofNat_add_mod_eq (x y : Byte) : BitVec.ofNat 8 ((x.toNat + y.toNat) % 256) = x + y := by
  apply BitVec.eq_of_toNat_eq
  simp

/-- The difference of two bytes is the exact difference modulo 256. -/
theorem ofNat_sub_mod_eq (x y : Byte) : BitVec.ofNat 8 ((256 + x.toNat - y.toNat) % 256) = x - y := by
  apply BitVec.eq_of_toNat_eq
  rw [BitVec.toNat_ofNat, BitVec.toNat_sub]
  omega

/-- The immediate is zero-extended (30_encoding.md R61). -/
theorem toNat_immediate (imm : Nibble) : (immediate imm).toNat = imm.toNat :=
  BitVec.toNat_setWidth_of_le (by decide)

/-- The immediate is never negative. -/
theorem msb_immediate (imm : Nibble) : (immediate imm).msb = false := by
  rw [BitVec.msb_eq_decide, toNat_immediate, decide_eq_false_iff_not]
  omega

/-- The addition sign rule in terms of the signs. -/
theorem addOverflow_eq_decide (x y r : Byte) :
    addOverflow x y r = decide (x.msb = y.msb ∧ r.msb ≠ x.msb) := by
  rw [Bool.eq_iff_iff, decide_eq_true_iff]
  simp only [addOverflow, bit7_eq_msb, Bool.and_eq_true, beq_iff_eq, bne_iff_ne]

/-- The subtraction sign rule in terms of the signs. -/
theorem subOverflow_eq_decide (x y r : Byte) :
    subOverflow x y r = decide (x.msb ≠ y.msb ∧ r.msb ≠ x.msb) := by
  rw [Bool.eq_iff_iff, decide_eq_true_iff]
  simp only [subOverflow, bit7_eq_msb, Bool.and_eq_true, bne_iff_ne]

/-- Adding an immediate overflows only from a non-negative value to a negative one (42_alu.md R102). -/
theorem addOverflow_immediate (x r : Byte) (imm : Nibble) :
    addOverflow x (immediate imm) r = decide (x.msb = false ∧ r.msb = true) := by
  rw [addOverflow_eq_decide, msb_immediate, decide_eq_decide]
  refine and_congr_right fun hx => ?_
  rw [hx, Bool.ne_false_iff]

/-! ### The state after an ALU instruction -/

/-- The write of an ALU result after the execute entry, field by field. -/
theorem enterExecute_writeAluResult_eq (s : State) (r : Byte) (o : Bool) : s.enterExecute.writeAluResult r o =
    { s with regA := r, flagZ := decide (r = 0#8), flagN := decide (128 ≤ r.toNat), flagO := o,
             lastDecoded := none } := by
  rw [← bit7_eq_decide]
  rfl

/-- ADD leaves the sum and its sign rule. -/
theorem after_add_eq (s : State) : s.after .add = s.enterExecute.writeAluResult (s.regA + s.regB)
    (decide (s.regA.msb = s.regB.msb ∧ (s.regA + s.regB).msb ≠ s.regA.msb)) := by
  rw [State.after, State.aluAdd, addResult_eq, addOverflow_eq_decide]

/-- SUB leaves the difference and its sign rule. -/
theorem after_sub_eq (s : State) : s.after .sub = s.enterExecute.writeAluResult (s.regA - s.regB)
    (decide (s.regA.msb ≠ s.regB.msb ∧ (s.regA - s.regB).msb ≠ s.regA.msb)) := by
  rw [State.after, State.aluSub, subResult_eq, subOverflow_eq_decide]

/-- ADDI leaves the sum with the immediate, and O where bit 7 went from 0 to 1. -/
theorem after_addi_eq (s : State) (imm : Nibble) :
    s.after (.addi imm) = s.enterExecute.writeAluResult (s.regA + immediate imm)
      (decide (s.regA.msb = false ∧ (s.regA + immediate imm).msb = true)) := by
  rw [State.after, State.aluAdd, addResult_eq, addOverflow_immediate]

/-- Settles O10: the exact sum modulo 256 is the byte the ALU writes. -/
theorem addCompletesWithTheSumAndFlags : Obligations.AddCompletesWithTheSumAndFlags := by
  refine ⟨fun cfg low => decodeByte_append_of_lookup (m := .add) rfl low, ?_⟩
  rintro s _ rfl
  rw [ofNat_add_mod_eq, exec_eq, after_add_eq, enterExecute_writeAluResult_eq]

/-- Settles O11: the exact difference modulo 256 is the byte the ALU writes. -/
theorem subCompletesWithTheDifferenceAndFlags : Obligations.SubCompletesWithTheDifferenceAndFlags := by
  refine ⟨fun cfg low => decodeByte_append_of_lookup (m := .sub) rfl low, ?_⟩
  rintro s _ rfl
  rw [ofNat_sub_mod_eq, exec_eq, after_sub_eq, enterExecute_writeAluResult_eq]

/-- Settles O12: ADDI is an addition whose second operand is never negative. -/
theorem addiCompletesWithTheSumAndFlags : Obligations.AddiCompletesWithTheSumAndFlags := by
  rintro s imm _ rfl
  rw [← toNat_immediate, ofNat_add_mod_eq, exec_eq, after_addi_eq, enterExecute_writeAluResult_eq]

/-- O after an instruction is the test that characterises it. -/
theorem flagO_eq_decide_of_exec {p : Prop} [Decidable p] (h : exec i s = .next t)
    (hp : (s.after i).flagO = true ↔ p) : t.flagO = decide p := by
  rw [← exec_next_iff.1 h, Bool.eq_iff_iff, hp, decide_eq_true_iff]

/-- Settles O13, from the range test of each instruction. -/
theorem overflowIsTheSignedRangeTest : Obligations.OverflowIsTheSignedRangeTest :=
  fun s _ => ⟨fun h => flagO_eq_decide_of_exec h (s.after_flagO_iff .add),
    fun h => flagO_eq_decide_of_exec h (s.after_flagO_iff .sub),
    fun imm h => flagO_eq_decide_of_exec h (s.after_flagO_iff (.addi imm))⟩

end Sys2Proof.Machine
end

section
/-! Control transfer (43_control.md R107 to R110): a jump is the execute entry and, where it is taken, the target and the
mark that suppresses the next increment. -/

namespace Sys2Proof.Machine

variable {s : State} {i : Instr} {k : Addr} {taken : Bool}

/-- A marked jump suppresses the increment, which clears the mark (40_cycle.md R78). -/
theorem incrementIAR_state_of_jumped (running : s.halted = false) (marked : s.jumped = true) :
    (incrementIAR s).state = { s with jumped := false } := by
  rw [incrementIAR_running running, if_pos marked]

/-- With no jump marked, the increment applies (40_cycle.md R78). -/
theorem incrementIAR_iar_of_not_jumped (running : s.halted = false) (unmarked : s.jumped = false) :
    (incrementIAR s).state.iar = BitVec.ofNat 4 ((s.iar.toNat + 1) % 16) := by
  rw [← addr_succ_eq_ofNat, incrementIAR_running running, unmarked]
  rfl

/-- Settles O14: the taken jump has left its target in IAR, where the suppressed increment keeps it. -/
theorem jumpCompletesAtTheTarget : Obligations.JumpCompletesAtTheTarget := by
  refine fun s k => ⟨fun _ => ⟨rfl, decodeByte_of_encode rfl rfl⟩,
    s.enterExecute.takeJump k, exec_eq (.jump k) s, rfl, fun running => ?_⟩
  exact incrementIAR_state_of_jumped (s := s.enterExecute.takeJump k) running rfl

/-- An instruction that is the execute entry and a jump on a condition completes; where the condition fails it marks
no jump of its own, so the increment applies. -/
theorem exec_of_after_eq_jumpIf (hjump : s.after i = s.enterExecute.jumpIf taken k) :
    ∃ t, exec i s = .next t ∧
      t = { s with
        iar := if taken then k else s.iar, jumped := if taken then true else s.jumped,
        flagO := false, lastDecoded := t.lastDecoded } ∧
      (s.halted = false → taken = false → s.jumped = false →
        (incrementIAR t).state.iar = BitVec.ofNat 4 ((s.iar.toNat + 1) % 16)) := by
  refine ⟨s.enterExecute.jumpIf taken k, exec_next_iff.2 hjump, ?_, ?_⟩
  · rw [State.jumpIf_fields]
    rfl
  · rintro running rfl unmarked
    exact incrementIAR_iar_of_not_jumped (s := s.enterExecute) running unmarked

/-- Settles O15: JUMP_NEG is the execute entry and a jump on N. -/
theorem jumpNegCompletesOnBothFlagValues : Obligations.JumpNegCompletesOnBothFlagValues :=
  fun _ _ => ⟨fun _ => ⟨rfl, decodeByte_of_encode rfl rfl⟩, exec_of_after_eq_jumpIf rfl⟩

/-- Settles O16: JUMP_ZERO is the execute entry and a jump on Z. -/
theorem jumpZeroCompletesOnBothFlagValues : Obligations.JumpZeroCompletesOnBothFlagValues :=
  fun _ _ => ⟨fun _ => ⟨rfl, decodeByte_of_encode rfl rfl⟩, exec_of_after_eq_jumpIf rfl⟩

end Sys2Proof.Machine
end

section
/-! NOP, HALT and the opcodes with no table entry (44_system.md R111 to R113): each is the execute entry, followed for
the last two by the halt (60_exceptions.md R118). -/

namespace Sys2Proof.Machine

/-- The halt after the execute entry, field by field. -/
theorem enterExecute_halt_eq (s : State) :
    s.enterExecute.halt = { s with flagO := false, lastDecoded := none, halted := true } :=
  rfl

/-- A read of a cell is answered with its byte, on a running and on a halted engine (20_memory.md R42). -/
theorem readMemory_addr (a : Addr) (s : State) :
    readMemory a.toNat s = ⟨.ok, .byte (Memory.read s.mem a.toNat), s⟩ := by
  have ha := a.isLt
  rw [readMemory_inside (by omega), Int.toNat_natCast]

/-- Settles O17: NOP is the execute entry alone. -/
theorem nopCompletesWithOnlyOverflowCleared : Obligations.NopCompletesWithOnlyOverflowCleared :=
  exec_eq .nop

/-- Settles O18: the halt bit refuses the increment, and the host's accessors do not consult it. -/
theorem haltCompletesHalted : Obligations.HaltCompletesHalted := by
  intro s
  refine ⟨s.enterExecute.halt, exec_eq .halt s, enterExecute_halt_eq s, rfl,
    incrementIAR_halted (State.halt_halted _), fun a v => ⟨readMemory_addr a _, ?_⟩⟩
  exact ⟨s.enterExecute.halt.memWrite a v, writeMemory_byte a v _, rfl, State.memRead_memWrite_same _ a v⟩

/-- Settles O19: for every opcode, the next state of `unknown` is that of HALT. -/
theorem unknownCompletesHalted : Obligations.UnknownCompletesHalted := by
  intro s op
  rw [← enterExecute_halt_eq]
  exact ⟨exec_eq (.unknown op) s, executeResponse_eq_unknownOpcode_iff.2 ⟨op, rfl⟩⟩

end Sys2Proof.Machine
end

section
/-! The responses (60_exceptions.md R115, R116): an answer is a success, a refusal or the halt of an unknown opcode. -/

namespace Sys2Proof.Machine

variable {s t : State} {c : Command} {i : Instr} {r : CommandResult}

/-- What a response says of the output and the state beside it (60_exceptions.md R116). -/
inductive Reported (s : State) : CommandResult → Prop where
  | success (out : Output) (t : State) : Reported s ⟨.ok, out, t⟩
  | refusal {e : Response} (known : e ≠ .unknownOpcode) : Reported s ⟨e, .nothing, s⟩
  | unknownHalt {t : State} (running : s.halted = false) (stopped : t.halted = true) :
      Reported s ⟨.unknownOpcode, .nothing, t⟩

/-- A phase that the halt alone refuses (40_cycle.md R82) succeeds on a running engine. -/
theorem reported_of_running_ok (hrunning : s.halted = false → r.response = .ok)
    (hstopped : s.halted = true → r = ⟨.halted, .nothing, s⟩) : Reported s r := by
  cases hs : s.halted with
  | true => rw [hstopped hs]; exact .refusal nofun
  | false =>
    obtain ⟨response, out, t⟩ := r
    cases hrunning hs
    exact .success out t

/-- An instruction executed on a running engine succeeds, unless it is UNKNOWN and has halted (44_system.md R113). -/
theorem reported_executeResponse (running : s.halted = false) (hhalt : (∃ op, i = .unknown op) → t.halted = true) :
    Reported s ⟨executeResponse i, .nothing, t⟩ := by
  cases i with
  | unknown op => exact .unknownHalt running (hhalt ⟨op, rfl⟩)
  | nop | loadA | loadB | storeA | storeB | add | sub | jump | jumpNeg | jumpZero | addi | halt =>
    exact .success .nothing t

/-- UNKNOWN halts the engine (44_system.md R113). -/
theorem after_halted_of_unknown (hi : ∃ op, i = .unknown op) : (s.after i).halted = true := by
  obtain ⟨op, rfl⟩ := hi
  exact State.halt_halted _

/-- Every answer of the command port is one of the three. -/
theorem Answer.reported (h : Answer s c r) : Reported s r := by
  cases h with
  | fetched => exact reported_of_running_ok (fun running => by rw [fetch_running running]) fetch_halted
  | decoded => exact reported_of_running_ok (fun running => by rw [decode_running running]) decode_halted
  | incremented =>
    exact reported_of_running_ok (fun running => by rw [incrementIAR_running running]) incrementIAR_halted
  | executed i running => exact reported_executeResponse running after_halted_of_unknown
  | stepped running =>
    exact reported_executeResponse running fun hunknown =>
      (incrementIAR_halted_eq _).trans (after_halted_of_unknown hunknown)
  | noneDecoded | rejected | readNoCell => exact .refusal nofun
  | notWritten _ error => exact .refusal (by rcases error with rfl | rfl <;> nofun)
  | registerReset | fullReset | readCell | wrote => exact .success _ _

/-- Settles O43, for each of the three sorts of answer. -/
theorem errorResponsesChangeNoState : Obligations.ErrorResponsesChangeNoState := by
  intro c s r h
  cases (runCommand_cases h).reported with
  | success out t => exact ⟨fun failed => absurd rfl failed, fun failed => absurd rfl failed, nofun⟩
  | refusal known => exact ⟨fun _ => rfl, fun _ _ => rfl, fun unknown => absurd unknown known⟩
  | unknownHalt running stopped =>
    exact ⟨fun _ => rfl, fun _ known => absurd rfl known, fun _ => ⟨running, stopped⟩⟩

end Sys2Proof.Machine
end

section
/-! The two resets (70_reset_and_hazards.md R131, R132, R134): what each leaves, and the full reset as sixteen writes
of 0. -/

namespace Sys2Proof.Machine

variable {s : State}

/-- Settles O46: of the states a command can leave, only those of a reset are out of the halt. -/
theorem registerResetClearsAllButMemory : Obligations.RegisterResetClearsAllButMemory :=
  ⟨fun _ _ _ h => (runCommand_effect h).clearsHalted, fun _ => rfl⟩

namespace State

/-- 0 written to the named cells, one after another. -/
def zeroCells (s : State) (cells : List Nat) : State :=
  cells.foldl (fun u a => u.memWrite (BitVec.ofNat 4 a) 0#8) s

@[simp] theorem zeroCells_nil (s : State) : s.zeroCells [] = s := rfl

@[simp] theorem zeroCells_cons (s : State) (n : Nat) (ns : List Nat) :
    s.zeroCells (n :: ns) = (s.memWrite (BitVec.ofNat 4 n) 0#8).zeroCells ns := rfl

/-- Zeroing cells changes the memory alone. -/
theorem zeroCells_eq (s : State) (ns : List Nat) : s.zeroCells ns = { s with mem := (s.zeroCells ns).mem } := by
  induction ns generalizing s with
  | nil => rfl
  | cons n ns ih => rw [zeroCells_cons, ih]; rfl

theorem zeroCells_mem_wf (ns : List Nat) (h : Memory.wf s.mem = true) : Memory.wf (s.zeroCells ns).mem = true := by
  induction ns generalizing s with
  | nil => exact h
  | cons n ns ih => rw [zeroCells_cons]; exact ih (Memory.wf_write _ _ h)

/-- A cell that is zeroed or holds 0 already reads 0 afterwards. -/
theorem memRead_zeroCells {a : Addr} {ns : List Nat} (h : Memory.wf s.mem = true)
    (ha : a.toNat ∈ ns ∨ s.memRead a = 0#8) : (s.zeroCells ns).memRead a = 0#8 := by
  induction ns generalizing s with
  | nil => simpa using ha
  | cons n ns ih =>
    rw [zeroCells_cons]
    refine ih (Memory.wf_write _ _ h) ?_
    by_cases hn : a = BitVec.ofNat 4 n
    · exact .inr (hn ▸ memRead_memWrite_same s a 0#8 h)
    · have hne : a.toNat ≠ n := fun heq => hn (by simp [← heq])
      rw [memRead_memWrite_other s 0#8 hn]
      exact ha.imp_left fun hmem => (List.mem_cons.1 hmem).resolve_left hne

/-- Sixteen zeroed cells are the canonical memory that lists nothing. -/
theorem zeroCells_sixteen_mem (h : Memory.wf s.mem = true) : (s.zeroCells (List.range 16)).mem = [] :=
  canonicalMemoryIsItsSixteenCells _ _ (zeroCells_mem_wf _ h) Memory.wf_nil fun a =>
    memRead_zeroCells h (.inl (List.mem_range.2 a.isLt))

/-- On a canonical memory the full reset is the register reset and sixteen writes of 0 (70_reset_and_hazards.md
R132). -/
theorem fullReset_eq_zeroCells (h : Memory.wf s.mem = true) :
    s.fullReset = s.registerReset.zeroCells (List.range 16) := by
  rw [zeroCells_eq, zeroCells_sixteen_mem (s := s.registerReset) h, fullReset]

end State

/-- Settles O47: the memory of a full reset lists nothing, and so do sixteen zeroed cells. -/
theorem fullResetZeroesTheMemoryToo : Obligations.FullResetZeroesTheMemoryToo :=
  fun s => ⟨s.fullReset, rfl, rfl, Memory.read_nil, State.fullReset_eq_zeroCells⟩

/-- Settles O48: power-on and a full reset hold the same constants, by definition (D9, log 4). -/
theorem powerOnIsWhatAFullResetLeaves : Obligations.PowerOnIsWhatAFullResetLeaves :=
  ⟨⟨rfl, rfl, rfl, rfl, rfl, rfl, rfl, rfl, rfl, rfl, rfl, Memory.read_nil⟩, fun _ => rfl⟩

end Sys2Proof.Machine
end
